-- ==== Sys2Proof/Word.lean ====
section
/-! DEFINITION. The words and values of the machine, the operand classes, and the names of the fault causes. -/

namespace Sys2Proof

/-- A byte, the unit of a program image (R54) and of the input port (R185). -/
abbrev Byte := BitVec 8

/-- `Word16` of R10: a cell of memory or one word of an instruction. -/
abbrev Word := BitVec 16

/-- `Val15` of R10, the 15-bit value of R20: the payload of registers and stack entries (R22). -/
abbrev Val := BitVec 15

/-- `RegIdx` of R10: one of the eight registers r0 to r7 (R23). -/
abbrev RegIdx := Fin 8

/-- What a valid operand word stands for (R71). -/
inductive Operand where
  /-- Immediate: the literal value. -/
  | imm (v : Val)
  /-- RegisterRef: the register of that index. -/
  | reg (r : RegIdx)
deriving DecidableEq, Repr

/-- The fault causes of R200. -/
inductive Cause where
  /-- A selector or operand word in [32776, 65535]. -/
  | decodeError
  /-- An immediate in a destination position, or a register reference as the selector. -/
  | typeError
  /-- A selector word in [22, 32767]. -/
  | unknownOpcode
  /-- `pop` on an empty stack. -/
  | stackUnderflow
  /-- A word fetched past the last address. -/
  | unmappedAddress
  /-- A number above 32767 where a value is made (`rmem`, `call`). -/
  | invalidValue
  /-- `mod` by 0. -/
  | divisionByZero
  /-- `out` of a value that is no Unicode scalar: never, for a 15-bit value (R184). -/
  | invalidScalarValue
  /-- The input port is closed, or the output port fails. -/
  | ioFailure
  /-- A push on a stack that already holds `STACK_CAPACITY` entries. -/
  | stackOverflow
deriving DecidableEq, Repr

end Sys2Proof
end

