-- ==== Sys2Proof/Syntax.lean ====
section
/-! DEFINITION. The instructions: one constructor for each of the 22 rows of the opcode table (R78). -/

namespace Sys2Proof

/-- The instructions of R78, operands in the table's order. `d` is a destination (`reg`) operand, `a` and `b` are
`val` operands (R76). Both kinds are decoded operands: a destination that is no register is ill-formed
(`Instr.wf`), and its instruction takes `TypeError` (R74). -/
inductive Instr where
  | halt
  | set (d a : Operand)
  | push (a : Operand)
  | pop (d : Operand)
  | eq (d a b : Operand)
  | gt (d a b : Operand)
  | jmp (a : Operand)
  | jt (a b : Operand)
  | jf (a b : Operand)
  | add (d a b : Operand)
  | mult (d a b : Operand)
  | mod (d a b : Operand)
  | and (d a b : Operand)
  | or (d a b : Operand)
  | not (d a : Operand)
  | rmem (d a : Operand)
  | wmem (a b : Operand)
  | call (a : Operand)
  | ret
  | out (a : Operand)
  /-- The table's `in`, a word Lean keeps for itself. -/
  | inp (d : Operand)
  | noop
deriving DecidableEq, Repr

end Sys2Proof
end

