-- ==== Sys2Proof/WellFormed.lean ====
section
/-! DEFINITION. Well-formed instructions: every destination operand names a register (R74, R76).
Every other bound of an instruction (a 15-bit immediate, a register index below 8) holds by its type. -/

namespace Sys2Proof

/-- The operand is a register reference. -/
def Operand.isReg : Operand → Bool
  | .reg _ => true
  | .imm _ => false

/-- The destination (`reg`) operand of an instruction that has one: the twelve of R24. -/
def Instr.dest? : Instr → Option Operand
  | .halt => none
  | .set d _ => some d
  | .push _ => none
  | .pop d => some d
  | .eq d _ _ => some d
  | .gt d _ _ => some d
  | .jmp _ => none
  | .jt _ _ => none
  | .jf _ _ => none
  | .add d _ _ => some d
  | .mult d _ _ => some d
  | .mod d _ _ => some d
  | .and d _ _ => some d
  | .or d _ _ => some d
  | .not d _ => some d
  | .rmem d _ => some d
  | .wmem _ _ => none
  | .call _ => none
  | .ret => none
  | .out _ => none
  | .inp d => some d
  | .noop => none

/-- R76: a `reg` position holds a register reference. -/
def Instr.wf (i : Instr) : Bool :=
  match i.dest? with
  | none => true
  | some d => d.isReg

end Sys2Proof
end

