-- ==== Sys2Proof/Decode.lean ====
section
/-! DEFINITION. The operand decoder (R72 to R75), the instruction decoder (R77 to R82) and the encoder (R77, R78).
Both directions are written from the opcode map of R78. -/

namespace Sys2Proof

/-- `Decode(w)` of R72. -/
def decodeOperand (w : Word) : Except Cause Operand :=
  if w.toNat ≤ 32767 then .ok (.imm (BitVec.ofNat 15 w.toNat))
  else if w.toNat ≤ 32775 then .ok (.reg (Fin.ofNat 8 (w.toNat - 32768)))
  else .error .decodeError

/-- `RequireRegister(op)` of R74. -/
def requireRegister : Operand → Except Cause RegIdx
  | .reg r => .ok r
  | .imm _ => .error .typeError

/-- `RequireImmediate(op)` of R75. -/
def requireImmediate : Operand → Except Cause Val
  | .imm v => .ok v
  | .reg _ => .error .typeError

/-- The selector word as a number (R79): `Decode`, then `RequireImmediate`. The comparison with 21 is the last
line of `decodeBody`. -/
def decodeSelector (w : Word) : Except Cause Nat :=
  match decodeOperand w with
  | .error c => .error c
  | .ok op =>
    match requireImmediate op with
    | .error c => .error c
    | .ok v => .ok v.toNat

/-- The next operand word, decoded (one round of the loop of R81). The words are those of memory from the
pointer on, so that running out of them is the fetch past the last address (R50). -/
def takeOperand : List Word → Except Cause (Operand × List Word)
  | [] => .error .unmappedAddress
  | w :: ws =>
    match decodeOperand w with
    | .error c => .error c
    | .ok op => .ok (op, ws)

/-- R82: the kind check of a destination comes before the fetch of the words after it. So where a later word
fails and the destination is an immediate, the fault is the destination's. An immediate destination whose later
words are all good decodes, and the instruction's meaning raises its `TypeError` (entry 9). -/
def afterDestination (d : Operand) (later : Except Cause Instr) : Except Cause Instr :=
  match later with
  | .ok i => .ok i
  | .error c =>
    match requireRegister d with
    | .ok _ => .error c
    | .error t => .error t

/-- Formats `FV` and `FR` of R77: one operand. -/
def decodeOne (mk : Operand → Instr) (ws : List Word) : Except Cause Instr :=
  match takeOperand ws with
  | .error c => .error c
  | .ok (a, _) => .ok (mk a)

/-- Format `FVV` of R77. -/
def decodeTwo (mk : Operand → Operand → Instr) (ws : List Word) : Except Cause Instr :=
  match takeOperand ws with
  | .error c => .error c
  | .ok (a, rest) => decodeOne (mk a) rest

/-- Format `FRV` of R77. -/
def decodeDestOne (mk : Operand → Operand → Instr) (ws : List Word) : Except Cause Instr :=
  match takeOperand ws with
  | .error c => .error c
  | .ok (d, rest) => afterDestination d (decodeOne (mk d) rest)

/-- Format `FRVV` of R77. -/
def decodeDestTwo (mk : Operand → Operand → Operand → Instr) (ws : List Word) : Except Cause Instr :=
  match takeOperand ws with
  | .error c => .error c
  | .ok (d, rest) => afterDestination d (decodeTwo (mk d) rest)

/-- The opcode map of R78, with the range check of R79 as its last line. -/
def decodeBody (sel : Nat) (ws : List Word) : Except Cause Instr :=
  match sel with
  | 0 => .ok .halt
  | 1 => decodeDestOne .set ws
  | 2 => decodeOne .push ws
  | 3 => decodeOne .pop ws
  | 4 => decodeDestTwo .eq ws
  | 5 => decodeDestTwo .gt ws
  | 6 => decodeOne .jmp ws
  | 7 => decodeTwo .jt ws
  | 8 => decodeTwo .jf ws
  | 9 => decodeDestTwo .add ws
  | 10 => decodeDestTwo .mult ws
  | 11 => decodeDestTwo .mod ws
  | 12 => decodeDestTwo .and ws
  | 13 => decodeDestTwo .or ws
  | 14 => decodeDestOne .not ws
  | 15 => decodeDestOne .rmem ws
  | 16 => decodeTwo .wmem ws
  | 17 => decodeOne .call ws
  | 18 => .ok .ret
  | 19 => decodeOne .out ws
  | 20 => decodeOne .inp ws
  | 21 => .ok .noop
  | _ => .error .unknownOpcode

/-- The decoder: the instruction that a sequence of words begins with, or the cause of the first check that fails
(R81, R82). Total on any words. -/
def decode : List Word → Except Cause Instr
  | [] => .error .unmappedAddress
  | w :: ws =>
    match decodeSelector w with
    | .error c => .error c
    | .ok sel => decodeBody sel ws

/-- The words of a byte sequence, the first byte of each pair its low byte (R54). A lone last byte makes no word. -/
def wordsOfBytes : List Byte → List Word
  | lo :: hi :: bs => BitVec.ofNat 16 (lo.toNat + 256 * hi.toNat) :: wordsOfBytes bs
  | _ => []

/-- The decoder on the bytes of memory, in the image's order (R54). -/
def decodeBytes (bs : List Byte) : Except Cause Instr := decode (wordsOfBytes bs)

/-- The word of an operand (R71). -/
def encodeOperand : Operand → Word
  | .imm v => BitVec.ofNat 16 v.toNat
  | .reg r => BitVec.ofNat 16 (32768 + r.val)

/-- The selector of an instruction (R78). -/
def Instr.selector : Instr → Nat
  | .halt => 0
  | .set _ _ => 1
  | .push _ => 2
  | .pop _ => 3
  | .eq _ _ _ => 4
  | .gt _ _ _ => 5
  | .jmp _ => 6
  | .jt _ _ => 7
  | .jf _ _ => 8
  | .add _ _ _ => 9
  | .mult _ _ _ => 10
  | .mod _ _ _ => 11
  | .and _ _ _ => 12
  | .or _ _ _ => 13
  | .not _ _ => 14
  | .rmem _ _ => 15
  | .wmem _ _ => 16
  | .call _ => 17
  | .ret => 18
  | .out _ => 19
  | .inp _ => 20
  | .noop => 21

/-- The operands of an instruction, in the order of R78. -/
def Instr.operands : Instr → List Operand
  | .halt => []
  | .set d a => [d, a]
  | .push a => [a]
  | .pop d => [d]
  | .eq d a b => [d, a, b]
  | .gt d a b => [d, a, b]
  | .jmp a => [a]
  | .jt a b => [a, b]
  | .jf a b => [a, b]
  | .add d a b => [d, a, b]
  | .mult d a b => [d, a, b]
  | .mod d a b => [d, a, b]
  | .and d a b => [d, a, b]
  | .or d a b => [d, a, b]
  | .not d a => [d, a]
  | .rmem d a => [d, a]
  | .wmem a b => [a, b]
  | .call a => [a]
  | .ret => []
  | .out a => [a]
  | .inp d => [d]
  | .noop => []

/-- The words of an instruction: the selector, then one word for each operand (R70, R77). -/
def encode (i : Instr) : List Word :=
  BitVec.ofNat 16 i.selector :: i.operands.map encodeOperand

/-- The length of an instruction in words (R80). -/
def Instr.length (i : Instr) : Nat := 1 + i.operands.length

/-- `n(sel)` of R80, the number of operand words, read from the table of R78. -/
def operandCount (sel : Nat) : Nat :=
  if sel ∈ [0, 18, 21] then 0
  else if sel ∈ [2, 3, 6, 17, 19, 20] then 1
  else if sel ∈ [1, 7, 8, 14, 15, 16] then 2
  else 3

/-- The selectors whose first operand is a destination: formats `FR`, `FRV` and `FRVV` of R77. -/
def hasDestination (sel : Nat) : Bool :=
  decide (sel ∈ [1, 3, 4, 5, 9, 10, 11, 12, 13, 14, 15, 20])

/-- Word `k` of an instruction whose bits are numbered as the opcode table numbers them: bits 16k+15 to 16k. -/
def tableWord (nbits w k : Nat) : Word := BitVec.ofNat 16 (w % 2 ^ nbits / 2 ^ (16 * k))

/-- The four words (the longest instruction, R70) of a table word of `nbits` bits, every bit above `nbits` 0. -/
def tableWords (nbits w : Nat) : List Word :=
  [tableWord nbits w 0, tableWord nbits w 1, tableWord nbits w 2, tableWord nbits w 3]

/-- The low byte, then the high byte: how the hardware lays a word out (R54). -/
def bytesOfWords : List Word → List Byte
  | [] => []
  | w :: ws => BitVec.ofNat 8 w.toNat :: BitVec.ofNat 8 (w.toNat / 256) :: bytesOfWords ws

/-- The instruction the decoder reads from a table word. -/
def decodeTableWord (nbits w : Nat) : Option Instr :=
  match decodeBytes (bytesOfWords (tableWords nbits w)) with
  | .ok i => some i
  | .error _ => none

end Sys2Proof
end

