-- ==== Sys2Proof/Config.lean ====
section
/-! DEFINITION. What a build or the environment fixes: the build parameters, and the free values of the two ports. -/

namespace Sys2Proof

/-- The answer of the input port to a `Read()` (R185). -/
inductive InputAnswer where
  /-- `Byte(b)`. -/
  | byte (b : Byte)
  /-- `Closed`: the input source is closed. -/
  | closed
deriving DecidableEq, Repr

/-- The answer of the output port to an `Emit(v)` (R182). -/
inductive OutputAnswer where
  /-- `Accepted`. -/
  | accepted
  /-- `Failed`. -/
  | failed
deriving DecidableEq, Repr, Inhabited

/-- The parameters of R8 that are constant for one machine. No step changes them.
A statement about every state is a statement about every build (entries 4 and 5). -/
structure Build where
  /-- `STACK_CAPACITY` (R31): `none` is `unbounded`. -/
  stackCapacity : Option Nat
  /-- `SENTINEL` (R186): the byte the input collaborator diverts to the debug collaborator, if it has one. -/
  sentinel : Option Byte
deriving DecidableEq, Repr

/-- `InputOracle` (R8, R185): what the input port does the n-th time the core asks it, an answer or no answer yet.
FREE VALUE (entry 6): no body, under no law. -/
opaque Config.inputOracle : Nat → Option InputAnswer

/-- `OutputOracle` (R8, R182): what the output port answers to the n-th `Emit`.
FREE VALUE (entry 8): no body, under no law. -/
opaque Config.outputOracle : Nat → OutputAnswer

end Sys2Proof
end

