-- ==== Sys2Proof/Machine/State.lean ====
section
/-! DEFINITION. The state of the machine as plain data, the outcomes other than a next state, and the state after reset. -/

namespace Sys2Proof.Machine

/-- Memory (R40) as the bytes of its words in the image's order (R54): word `a` is byte `2 * a` (bits 7:0) and byte
`2 * a + 1` (bits 15:8). The list is in one canonical form, `Memory.wf`. Entry 2. -/
abbrev Memory := List Host.Cell

/-- The run status and the fault record (R35, R36). -/
inductive RunStatus where
  | running
  | halted
  /-- `Faulted(cause)` with `FAULT_ADDR`, the start address of the instruction that faulted. -/
  | faulted (cause : Cause) (addr : Word)
deriving DecidableEq, Repr

/-- A `Read()` that has no answer yet (R38, R185): the destination register of the waiting `in`, and the address
it started at. -/
structure PendingRead where
  dest : RegIdx
  start : Word
deriving DecidableEq, Repr

/-- THE MODEL'S OWN: what the two collaborators answer. A script runs out into the free values
`Config.inputOracle` and `Config.outputOracle`, which the counters index (entries 6 and 8). -/
structure Ports where
  /-- What the input port does the next times it is asked: `none` is no answer yet. -/
  inputScript : List (Option InputAnswer)
  /-- How many times the input port has been asked. -/
  inputReads : Nat
  /-- What the output port answers the next times. -/
  outputScript : List OutputAnswer
  /-- How many values the output port has been offered. -/
  outputEmits : Nat
deriving DecidableEq, Repr

/-- The state: "{Memory, Register Bank, Stack, Instruction Pointer, run status}", the wait of R38, the two records
of R254, the build parameters (R8) and the model's own ports. -/
structure State where
  /-- r0 to r7 (R23). -/
  regs : Vector Val 8
  /-- The instruction pointer, a 16-bit register with values 0 to 32768 (R27). -/
  pc : Word
  /-- The stack, its top last (R31, R32). -/
  stack : List Val
  /-- The memory (R40). -/
  mem : Memory
  /-- The run status and the fault record (R35, R36). -/
  status : RunStatus
  /-- Waiting for input (R38). -/
  waiting : Option PendingRead
  /-- The output trace (R183). -/
  outTrace : List Val
  /-- The input answers consumed, in order (R254). -/
  inTrace : List InputAnswer
  /-- The build parameters (R8). No step changes them. -/
  build : Build
  /-- The answers of the two collaborators. -/
  ports : Ports
deriving DecidableEq, Repr

/-- The machine's reasons to answer a fault: there is none.
Every fault of the spec is taken as R210 describes it, which is a next state with the status `faulted` (entry 1), and
a machine that has ended stays as it is (R35; entry 16). Nothing raises one; that is safe. -/
inductive Fault where
deriving DecidableEq, Repr

/-- The reasons for a refusal. -/
inductive Refusal where
  /-- Raised by `exec`'s arm of an instruction without a meaning; no arm does. Safe: nothing is claimed of it. -/
  | notModelled (mnemonic : String)
  /-- Raised by `load` on an image with an odd number of bytes (R241). Safe: no machine is created. -/
  | imageOddLength
  /-- Raised by `load` on an image of more than 32768 words (R241). Safe: no machine is created. -/
  | imageTooLong
deriving DecidableEq, Repr

/-- The build of this spec: `STACK_CAPACITY = unbounded` (R8, R31; entry 4), and no sentinel byte, so that every
byte may answer a read (entry 5). -/
def Build.reset : Build := { stackCapacity := none, sentinel := none }

/-- No script: each port's answers are free (entries 6 and 8). -/
def Ports.reset : Ports := { inputScript := [], inputReads := 0, outputScript := [], outputEmits := 0 }

/-- The reset state of R41, with an empty program image (every cell of memory 0). -/
def State.reset : State where
  regs := Vector.replicate 8 0
  pc := 0
  stack := []
  mem := []
  status := .running
  waiting := none
  outTrace := []
  inTrace := []
  build := Build.reset
  ports := Ports.reset

end Sys2Proof.Machine
end

