-- ==== Sys2Proof/Machine/Ops.lean ====
section
/-! DEFINITION. The named operations: the setters of State, memory (R50, R51, R54), the register bank (R24), the pointer
(R28), the stack (R32, R33), taking a fault (R210) and the fetch (R81). -/

namespace Sys2Proof.Machine

/-! ## The fields of State -/

def State.setRegs (s : State) (v : Vector Val 8) : State := { s with regs := v }
def State.setPc (s : State) (v : Word) : State := { s with pc := v }
def State.setStack (s : State) (v : List Val) : State := { s with stack := v }
def State.setMem (s : State) (v : Memory) : State := { s with mem := v }
def State.setStatus (s : State) (v : RunStatus) : State := { s with status := v }
def State.setWaiting (s : State) (v : Option PendingRead) : State := { s with waiting := v }
def State.setOutTrace (s : State) (v : List Val) : State := { s with outTrace := v }
def State.setInTrace (s : State) (v : List InputAnswer) : State := { s with inTrace := v }
def State.setPorts (s : State) (v : Ports) : State := { s with ports := v }

/-! ## Memory -/

/-- How many bytes the 32768 words of memory have (R40). -/
def Memory.size : Nat := 65536

/-- What a byte of memory that nothing has written reads as: 0 ("remaining cells are zero", R41). -/
def Memory.unlisted (_a : Nat) : Byte := 0

/-- The byte at byte address `a`. -/
def Memory.byteAt : Memory → Nat → Byte
  | [], a => Memory.unlisted a
  | (k, b) :: m, a => if k = a then b else Memory.byteAt m a

/-- Store a byte, keeping the canonical form: a byte equal to what an unlisted address reads as is not listed. -/
def Memory.setByte : Memory → Nat → Byte → Memory
  | [], a, b => if b = Memory.unlisted a then [] else [(a, b)]
  | (k, c) :: m, a, b =>
    if a < k then
      if b = Memory.unlisted a then (k, c) :: m else (a, b) :: (k, c) :: m
    else if a = k then
      if b = Memory.unlisted a then m else (a, b) :: m
    else (k, c) :: Memory.setByte m a b

/-- The canonical form from byte address `lo` on: addresses strictly rising and inside memory, no entry equal to
what an unlisted address reads as. -/
def Memory.wfFrom : Nat → Memory → Bool
  | _, [] => true
  | lo, (k, b) :: m =>
    decide (lo ≤ k) && decide (k < Memory.size) && decide (b ≠ Memory.unlisted k) && Memory.wfFrom (k + 1) m

/-- The canonical form of memory. -/
def Memory.wf (m : Memory) : Bool := Memory.wfFrom 0 m

/-- The word at word address `a`: `byte[2a] + 256 × byte[2a+1]` (R54). -/
def Memory.wordAt (m : Memory) (a : Nat) : Word :=
  BitVec.ofNat 16 ((m.byteAt (2 * a)).toNat + 256 * (m.byteAt (2 * a + 1)).toNat)

/-- Store word `w` at word address `a`: its low byte, then its high byte (R54). -/
def Memory.setWord (m : Memory) (a : Nat) (w : Word) : Memory :=
  Memory.setByte (Memory.setByte m (2 * a) (BitVec.ofNat 8 w.toNat)) (2 * a + 1) (BitVec.ofNat 8 (w.toNat / 256))

/-- `MemRead(a)` of R50. -/
def memRead (m : Memory) (a : Nat) : Except Cause Word :=
  if a ≤ 32767 then .ok (m.wordAt a) else .error .unmappedAddress

/-- `MemWrite(a, w)` of R51. The address is a 15-bit value, so it is in range (R57). -/
def memWrite (m : Memory) (a : Val) (w : Word) : Memory := m.setWord a.toNat w

/-- The bytes of an image from byte address `a` on, in the canonical form. -/
def Memory.ofBytes : Nat → List Byte → Memory
  | _, [] => []
  | a, b :: bs =>
    if b = Memory.unlisted a then Memory.ofBytes (a + 1) bs else (a, b) :: Memory.ofBytes (a + 1) bs

/-- Store the words that fit at word addresses `a`, `a + 1`, … below 32768. -/
def Memory.setWords : Memory → Nat → List Word → Memory
  | m, _, [] => m
  | m, a, w :: ws => if a ≤ 32767 then Memory.setWords (m.setWord a w) (a + 1) ws else m

/-! ## Values, registers, the pointer -/

/-- `MkVal(n)` of R21. -/
def mkVal (n : Word) : Except Cause Val :=
  if n.toNat ≤ 32767 then .ok (BitVec.ofNat 15 n.toNat) else .error .invalidValue

/-- Read register `r` (R24, R26). -/
def State.reg (s : State) (r : RegIdx) : Val := s.regs[r]

/-- Write register `r` (R24). No register is hard-wired (R23). -/
def State.setReg (s : State) (r : RegIdx) (v : Val) : State := s.setRegs (s.regs.set r v)

/-- Move the pointer past the `n` words of an instruction that starts at it (R28). A meaning runs with the pointer at
the start of its instruction (entry 3). -/
def State.advance (s : State) (n : Nat) : State := s.setPc (s.pc + BitVec.ofNat 16 n)

/-- A control transfer: the pointer becomes the 15-bit target (R27, R28). -/
def State.jump (s : State) (target : Val) : State := s.setPc (BitVec.ofNat 16 target.toNat)

/-! ## The stack -/

/-- The stack holds `STACK_CAPACITY` entries (R32). Never, where it is unbounded. -/
def State.stackFull (s : State) : Bool :=
  match s.build.stackCapacity with
  | none => false
  | some k => decide (s.stack.length = k)

/-- `Push(v)` of R32. -/
def push (v : Val) (s : State) : Except Cause State :=
  if s.stackFull then .error .stackOverflow else .ok (s.setStack (s.stack ++ [v]))

/-- `Pop()` of R33: the top entry and the state without it, or `none` on an empty stack. -/
def pop? (s : State) : Option (Val × State) :=
  match s.stack.getLast? with
  | none => none
  | some v => some (v, s.setStack s.stack.dropLast)

/-! ## Ends of an instruction -/

/-- TAKING A FAULT (R210): the status becomes `Faulted(c)` with the start address of the instruction, the pointer is
set to it, and no read stays in progress. Nothing else is saved or changed. There is no return from a fault (R211). -/
def takeFault (c : Cause) (start : Word) (s : State) : State :=
  ((s.setStatus (.faulted c start)).setPc start).setWaiting none

/-- The end of an instruction that started at the pointer of `s`: the state its effect gives, or, where a check
raised a cause, the fault taken in the state the instruction found (R210). -/
def settle (s : State) (effect : Except Cause State) : State :=
  match effect with
  | .ok t => t
  | .error c => takeFault c s.pc s

/-- The run status becomes Halted (R100, R171). -/
def State.halt (s : State) : State := s.setStatus .halted

/-! ## The fetch -/

/-- Up to `n` words of memory from word address `a` on, ending where `MemRead` faults. -/
def fetchFrom (m : Memory) : Nat → Nat → List Word
  | 0, _ => []
  | n + 1, a =>
    match memRead m a with
    | .error _ => []
    | .ok w => w :: fetchFrom m n (a + 1)

/-- The words the instruction at the pointer is fetched from (R81): four, the longest instruction (R70), or fewer at
the end of memory. Reads have no side effect (R56), so that reading words the instruction does not have changes
nothing (entry 15). -/
def fetchWords (s : State) : List Word := fetchFrom s.mem 4 s.pc.toNat

end Sys2Proof.Machine
end

