-- ==== Sys2Proof/Machine/Operands.lean ====
section
/-! DEFINITION. The operand forms: the value of a `val` operand (R73) and the write of a `reg` operand (R74, R24). -/

namespace Sys2Proof.Machine

/-- `Resolve(op)` of R73. -/
def resolve (s : State) : Operand → Val
  | .imm v => v
  | .reg r => s.reg r

/-- The end of an instruction of `n` words that writes the value `v` to its destination: the kind check of R74, the
write, and the pointer past its words. -/
def writeDest (d : Operand) (v : Val) (n : Nat) (s : State) : Except Cause State :=
  match requireRegister d with
  | .error c => .error c
  | .ok r => .ok ((s.setReg r v).advance n)

/-- The same where making the value has a check of its own: the kind check of the destination comes first (R82). -/
def writeDestChecked (d : Operand) (value : Except Cause Val) (n : Nat) (s : State) : Except Cause State :=
  match requireRegister d with
  | .error c => .error c
  | .ok _ =>
    match value with
    | .error c => .error c
    | .ok v => writeDest d v n s

end Sys2Proof.Machine
end

