-- ==== Sys2Proof/Machine/Alu.lean ====
section
/-! DEFINITION. The 15-bit ALU (R140 to R144) and its instructions: `add` (R145), `mult` (R146), `mod` (R147), `and` (R148),
`or` (R149), `not` (R150). -/

namespace Sys2Proof.Machine

/-- `add(a, b) = (a + b) mod 32768` (R141). -/
def ringAdd (a b : Val) : Val := BitVec.ofNat 15 ((a.toNat + b.toNat) % 32768)

/-- `mult(a, b) = (a × b) mod 32768`, of the exact product (R141). -/
def ringMult (a b : Val) : Val := BitVec.ofNat 15 (a.toNat * b.toNat % 32768)

/-- `mod(a, b)`, with the fault for a divisor 0 (R142). -/
def ringMod (a b : Val) : Except Cause Val :=
  if b.toNat = 0 then .error .divisionByZero else .ok (BitVec.ofNat 15 (a.toNat % b.toNat))

/-- `and(a, b) = (a & b) & 0x7FFF` (R143). -/
def ringAnd (a b : Val) : Val := a &&& b &&& 0x7FFF#15

/-- `or(a, b) = (a | b) & 0x7FFF` (R143). -/
def ringOr (a b : Val) : Val := (a ||| b) &&& 0x7FFF#15

/-- `not(a) = a ^ 0x7FFF` (R143). -/
def ringNot (a : Val) : Val := a ^^^ 0x7FFF#15

/-- R145. -/
def execAdd (d a b : Operand) (s : State) : Host.Outcome State Fault Refusal :=
  .next (settle s (writeDest d (ringAdd (resolve s a) (resolve s b)) 4 s))

/-- R146. -/
def execMult (d a b : Operand) (s : State) : Host.Outcome State Fault Refusal :=
  .next (settle s (writeDest d (ringMult (resolve s a) (resolve s b)) 4 s))

/-- R147. -/
def execMod (d a b : Operand) (s : State) : Host.Outcome State Fault Refusal :=
  .next (settle s (writeDestChecked d (ringMod (resolve s a) (resolve s b)) 4 s))

/-- R148. -/
def execAnd (d a b : Operand) (s : State) : Host.Outcome State Fault Refusal :=
  .next (settle s (writeDest d (ringAnd (resolve s a) (resolve s b)) 4 s))

/-- R149. -/
def execOr (d a b : Operand) (s : State) : Host.Outcome State Fault Refusal :=
  .next (settle s (writeDest d (ringOr (resolve s a) (resolve s b)) 4 s))

/-- R150. -/
def execNot (d a : Operand) (s : State) : Host.Outcome State Fault Refusal :=
  .next (settle s (writeDest d (ringNot (resolve s a)) 3 s))

end Sys2Proof.Machine
end

