-- ==== Sys2Proof/Machine/CallRet.lean ====
section
/-! DEFINITION. Subroutine call and return: `call` (R170) and `ret` (R171). -/

namespace Sys2Proof.Machine

/-- The effect of `call` (R170): the return address is made a value, then pushed, then the pointer is set (R204). -/
def callEffect (target : Val) (s : State) : Except Cause State :=
  match mkVal (s.pc + 2) with
  | .error c => .error c
  | .ok r =>
    match push r s with
    | .error c => .error c
    | .ok t => .ok (t.jump target)

/-- R170. -/
def execCall (a : Operand) (s : State) : Host.Outcome State Fault Refusal :=
  .next (settle s (callEffect (resolve s a) s))

/-- R171: on an empty stack `ret` halts, which is no fault. -/
def execRet (s : State) : Host.Outcome State Fault Refusal :=
  .next (match pop? s with
    | none => (s.advance 1).halt
    | some (v, t) => t.jump v)

end Sys2Proof.Machine
end

