-- ==== Sys2Proof/Machine/Flags.lean ====
section
/-! DEFINITION. The machine has no flags (R39): comparisons make a value 0 or 1 (R120, R121) and conditional jumps test a
value (R131, R132). Here too are the fields of the status register, computed from the run status (R37, R201). -/

namespace Sys2Proof.Machine

/-- 1 or 0, the result of a comparison (R39). -/
def truthValue (b : Bool) : Val := if b then 1 else 0

/-- The result of `eq` (R120). -/
def eqValue (a b : Val) : Val := truthValue (decide (a.toNat = b.toNat))

/-- The result of `gt`, unsigned (R121). -/
def gtValue (a b : Val) : Val := truthValue (decide (a.toNat > b.toNat))

/-- The condition of `jt` and `jf`: any value but 0 is true (R131, R132). -/
def isNonzero (a : Val) : Bool := decide (a.toNat ≠ 0)

/-- The cause codes of R201. -/
def causeCode : Cause → BitVec 4
  | .decodeError => 1
  | .typeError => 2
  | .unknownOpcode => 3
  | .stackUnderflow => 4
  | .unmappedAddress => 5
  | .invalidValue => 6
  | .divisionByZero => 7
  | .invalidScalarValue => 8
  | .ioFailure => 9
  | .stackOverflow => 10

/-- The field `STATE` of R37. -/
def State.stateField (s : State) : BitVec 2 :=
  match s.status with
  | .running => 0
  | .halted => 1
  | .faulted _ _ => 2

/-- The field `CAUSE` of R37: 0 while Running or Halted. -/
def State.causeField (s : State) : BitVec 4 :=
  match s.status with
  | .running => 0
  | .halted => 0
  | .faulted c _ => causeCode c

/-- The field `FAULT_ADDR` of R37: its reset value 0 (R41) until a fault is taken. -/
def State.faultAddrField (s : State) : Word :=
  match s.status with
  | .running => 0
  | .halted => 0
  | .faulted _ a => a

end Sys2Proof.Machine
end

