-- ==== Sys2Proof/Machine/Compare.lean ====
section
/-! DEFINITION. Comparisons: `eq` (R120) and `gt` (R121). -/

namespace Sys2Proof.Machine

/-- R120. -/
def execEq (d a b : Operand) (s : State) : Host.Outcome State Fault Refusal :=
  .next (settle s (writeDest d (eqValue (resolve s a) (resolve s b)) 4 s))

/-- R121. -/
def execGt (d a b : Operand) (s : State) : Host.Outcome State Fault Refusal :=
  .next (settle s (writeDest d (gtValue (resolve s a) (resolve s b)) 4 s))

end Sys2Proof.Machine
end

