-- ==== Sys2Proof/Machine/Control.lean ====
section
/-! DEFINITION. Machine control: `halt` (R100) and `noop` (R101). -/

namespace Sys2Proof.Machine

/-- R100. -/
def execHalt (s : State) : Host.Outcome State Fault Refusal := .next (s.advance 1).halt

/-- R101. -/
def execNoop (s : State) : Host.Outcome State Fault Refusal := .next (s.advance 1)

end Sys2Proof.Machine
end

