-- ==== Sys2Proof/Machine/DataStack.lean ====
section
/-! DEFINITION. Register move and stack: `set` (R110), `push` (R111), `pop` (R112). -/

namespace Sys2Proof.Machine

/-- R110. -/
def execSet (d a : Operand) (s : State) : Host.Outcome State Fault Refusal :=
  .next (settle s (writeDest d (resolve s a) 3 s))

/-- The effect of `push` (R111). -/
def pushEffect (v : Val) (s : State) : Except Cause State :=
  match push v s with
  | .error c => .error c
  | .ok t => .ok (t.advance 2)

/-- R111. -/
def execPush (a : Operand) (s : State) : Host.Outcome State Fault Refusal :=
  .next (settle s (pushEffect (resolve s a) s))

/-- The effect of `pop` (R112): the kind check of the destination, then the check for an empty stack, then the write. -/
def popEffect (d : Operand) (s : State) : Except Cause State :=
  match requireRegister d with
  | .error c => .error c
  | .ok _ =>
    match pop? s with
    | none => .error .stackUnderflow
    | some (v, t) => writeDest d v 2 t

/-- R112. -/
def execPop (d : Operand) (s : State) : Host.Outcome State Fault Refusal :=
  .next (settle s (popEffect d s))

end Sys2Proof.Machine
end

