-- ==== Sys2Proof/Machine/Io.lean ====
section
/-! DEFINITION. The two ports (R181 to R186) and the instructions `out` (R180) and `in` (R187). -/

namespace Sys2Proof.Machine

/-! ## Output -/

/-- `ScalarOK(v)`: the value is a Unicode scalar value (R184; entry 13). -/
def scalarOK (v : Val) : Bool :=
  decide (v.toNat ≤ 0xD7FF) || (decide (0xE000 ≤ v.toNat) && decide (v.toNat ≤ 0x10FFFF))

/-- What the output port answers to the next `Emit` (R182): the script, then the free value. -/
def outputAnswer (p : Ports) : OutputAnswer :=
  match p.outputScript with
  | ans :: _ => ans
  | [] => Config.outputOracle p.outputEmits

/-- The ports after an `Emit`. -/
def afterEmit (p : Ports) : Ports :=
  { p with outputScript := p.outputScript.tail, outputEmits := p.outputEmits + 1 }

/-- The effect of `out` (R180) on a value: the scalar check, then `Emit`, which does not wait (R181). An accepted
value joins the output trace (R183). A failed one does not (R182). -/
def emitValue (v : Val) (s : State) : State :=
  if scalarOK v then
    match outputAnswer s.ports with
    | .accepted => ((s.setPorts (afterEmit s.ports)).setOutTrace (s.outTrace ++ [v])).advance 2
    | .failed => takeFault .ioFailure s.pc (s.setPorts (afterEmit s.ports))
  else takeFault .invalidScalarValue s.pc s

/-- R180. -/
def execOut (a : Operand) (s : State) : Host.Outcome State Fault Refusal := .next (emitValue (resolve s a) s)

/-! ## Input -/

/-- The sentinel byte goes to the debug collaborator and never answers a read, which goes on (R186). -/
def divertSentinel (sentinel : Option Byte) (e : Option InputAnswer) : Option InputAnswer :=
  match e with
  | some (.byte b) => if sentinel = some b then none else some (.byte b)
  | some .closed => some .closed
  | none => none

/-- What the collaborator has for the input port when it is next asked: the script, then the free value. -/
def inputRaw (p : Ports) : Option InputAnswer :=
  match p.inputScript with
  | e :: _ => e
  | [] => Config.inputOracle p.inputReads

/-- What the core gets when it asks the input port: an answer of R185, or none yet. -/
def inputEvent (s : State) : Option InputAnswer := divertSentinel s.build.sentinel (inputRaw s.ports)

/-- The ports after the input port was asked. -/
def afterRead (p : Ports) : Ports :=
  { p with inputScript := p.inputScript.tail, inputReads := p.inputReads + 1 }

/-- `zext_15(b)` of R11. -/
def zextByte (b : Byte) : Val := BitVec.ofNat 15 b.toNat

/-- The effect of `in` from its `Read()` on (R185, R187), for the read `p`. On `Byte(b)` the byte is written and the
pointer stands after the two words of the `in`. On `Closed` the fault is taken at its start. With no answer yet the
machine waits, the pointer past the words it has fetched (R28, R38; entry 7). -/
def askInput (p : PendingRead) (s : State) : State :=
  match inputEvent s with
  | some (.byte b) =>
    ((((s.setPorts (afterRead s.ports)).setInTrace (s.inTrace ++ [.byte b])).setWaiting none).setReg p.dest
      (zextByte b)).setPc (p.start + 2)
  | some .closed =>
    takeFault .ioFailure p.start ((s.setPorts (afterRead s.ports)).setInTrace (s.inTrace ++ [.closed]))
  | none => ((s.setPorts (afterRead s.ports)).setWaiting (some p)).setPc (p.start + 2)

/-- R187: the kind check of the destination comes first, so that a malformed `in` asks for no input. -/
def execIn (d : Operand) (s : State) : Host.Outcome State Fault Refusal :=
  .next (match requireRegister d with
    | .error c => takeFault c s.pc s
    | .ok r => askInput { dest := r, start := s.pc } s)

end Sys2Proof.Machine
end

