-- ==== Sys2Proof/Machine/Jump.lean ====
section
/-! DEFINITION. Jumps: `jmp` (R130), `jt` (R131), `jf` (R132). -/

namespace Sys2Proof.Machine

/-- R130. -/
def execJmp (a : Operand) (s : State) : Host.Outcome State Fault Refusal := .next (s.jump (resolve s a))

/-- R131. -/
def execJt (a b : Operand) (s : State) : Host.Outcome State Fault Refusal :=
  .next (if isNonzero (resolve s a) then s.jump (resolve s b) else s.advance 3)

/-- R132. -/
def execJf (a b : Operand) (s : State) : Host.Outcome State Fault Refusal :=
  .next (if isNonzero (resolve s a) then s.advance 3 else s.jump (resolve s b))

end Sys2Proof.Machine
end

