-- ==== Sys2Proof/Machine/MemoryOps.lean ====
section
/-! DEFINITION. Memory access: `rmem` (R160) and `wmem` (R161). -/

namespace Sys2Proof.Machine

/-- `MkVal(MemRead(a))`, the value `rmem` writes (R160). -/
def readValue (m : Memory) (a : Val) : Except Cause Val :=
  match memRead m a.toNat with
  | .error c => .error c
  | .ok w => mkVal w

/-- R160. -/
def execRmem (d a : Operand) (s : State) : Host.Outcome State Fault Refusal :=
  .next (settle s (writeDestChecked d (readValue s.mem (resolve s a)) 3 s))

/-- R161: the value is stored as the word of the same number. -/
def execWmem (a b : Operand) (s : State) : Host.Outcome State Fault Refusal :=
  .next ((s.setMem (memWrite s.mem (resolve s a) (BitVec.ofNat 16 (resolve s b).toNat))).advance 3)

end Sys2Proof.Machine
end

