-- ==== Sys2Proof/Machine/Step.lean ====
section
/-! DEFINITION. One step of the dispatch loop (R81), and the placing of an instruction where the next step fetches it. -/

namespace Sys2Proof.Machine

/-- A step while Running: a read in progress is asked again (R38, R226), or else the instruction at the pointer is
fetched, decoded and executed, and a failed check of the fetch or the decoder takes its fault (R83). -/
def stepRunning (s : State) : Host.Outcome State Fault Refusal :=
  match s.waiting with
  | some p => .next (askInput p s)
  | none =>
    match decode (fetchWords s) with
    | .error c => .next (takeFault c s.pc s)
    | .ok i => exec i s

/-- One step. A machine that is Halted or Faulted fetches nothing and changes nothing (R35; entry 16). -/
def step (s : State) : Host.Outcome State Fault Refusal :=
  match s.status with
  | .running => stepRunning s
  | .halted => .next s
  | .faulted _ _ => .next s

/-- The instruction of a table word stored at the pointer, as a program load would place it, in a machine that is
Running and not waiting, so that the next step runs it. Words past the end of memory are not stored (entry 14). -/
def State.withFetchWord (s : State) (nbits w : Nat) : State :=
  ((s.setMem (s.mem.setWords s.pc.toNat (tableWords nbits w))).setStatus .running).setWaiting none

end Sys2Proof.Machine
end

