-- ==== Sys2Proof/Machine/Lifecycle.lean ====
section
/-! DEFINITION. The creation of a machine from a program image (R240, R241), and what the host gets of a run (R250, R252,
R254). -/

namespace Sys2Proof.Machine

/-- `Load(bytes)` of R240, for a build and the answers of the environment. An image of an odd number of bytes, or of
more than 32768 words, is refused and no machine is created (R241). -/
def load (build : Build) (ports : Ports) (image : List Byte) : Host.Outcome State Fault Refusal :=
  if image.length % 2 ≠ 0 then .refused .imageOddLength
  else if image.length / 2 > 32768 then .refused .imageTooLong
  else .next { State.reset with mem := Memory.ofBytes 0 image, build := build, ports := ports }

/-- A run has ended exactly when the status is Halted or Faulted (R250). -/
def State.ended (s : State) : Bool :=
  match s.status with
  | .running => false
  | .halted => true
  | .faulted _ _ => true

/-- What the core hands the host at the end of a run (R252). -/
inductive Report where
  /-- Halted, with the final pointer. -/
  | halted (pc : Word)
  /-- Faulted, with the cause and the pointer, which is the fault address (R42). -/
  | faulted (cause : Cause) (pc : Word) (addr : Word)
deriving DecidableEq, Repr

/-- The termination report (R252): none while the run has not ended. -/
def State.report (s : State) : Option Report :=
  match s.status with
  | .running => none
  | .halted => some (.halted s.pc)
  | .faulted c a => some (.faulted c s.pc a)

/-- The observation of a run (R254). -/
structure Observation where
  status : RunStatus
  pc : Word
  regs : Vector Val 8
  stack : List Val
  mem : Memory
  outTrace : List Val
  inTrace : List InputAnswer
deriving DecidableEq, Repr

/-- What of a state is observable (R254). -/
def State.observe (s : State) : Observation :=
  { status := s.status, pc := s.pc, regs := s.regs, stack := s.stack, mem := s.mem, outTrace := s.outTrace,
    inTrace := s.inTrace }

end Sys2Proof.Machine
end

