-- ==== Sys2Proof/Safety.lean ====
section
/-! DEFINITION. What counts as a safe run: the invariant every step keeps, runs, and the parts of the state a frame names. -/

namespace Sys2Proof.Machine

/-! ## The invariant -/

/-- What holds of every state a run reaches. -/
structure State.Inv (s : State) : Prop where
  /-- The list of memory is in its canonical form (entry 2). -/
  memory : s.mem.wf = true
  /-- The range of the pointer (R27). -/
  pointer : s.pc.toNat ≤ 32768
  /-- A bounded stack holds at most its capacity (R32). -/
  capacity : ∀ k, s.build.stackCapacity = some k → s.stack.length ≤ k
  /-- A machine that waits is Running, and its pointer stands after the two words of the waiting `in` (R38, R28). -/
  wait : ∀ p, s.waiting = some p → s.status = .running ∧ p.start.toNat ≤ 32766 ∧ s.pc = p.start + 2
  /-- The pointer and the fault address agree (R42), `InvalidScalarValue` is never raised (R184), and
  `StackOverflow` only where the capacity is finite (R200). -/
  fault : ∀ c a, s.status = .faulted c a →
    s.pc = a ∧ c ≠ .invalidScalarValue ∧ (c = .stackOverflow → s.build.stackCapacity ≠ none)

/-! ## Runs -/

/-- `Steps s t`: `t` is reached from `s` by some number of steps, each answering a next state. -/
inductive Steps : State → State → Prop where
  | refl (s : State) : Steps s s
  | step (s t u : State) : Steps s t → Sys2Proof.Machine.step t = .next u → Steps s u

/-- The start address of the instruction that the next step works on: that of the read in progress, or the pointer. -/
def State.start (s : State) : Word :=
  match s.waiting with
  | some p => p.start
  | none => s.pc

/-- The instruction that the next step runs from its fetch on, if it fetches one and the decoder takes it. -/
def State.nextInstr (s : State) : Option Instr :=
  match s.status, s.waiting with
  | .running, none =>
    match decode (fetchWords s) with
    | .ok i => some i
    | .error _ => none
  | _, _ => none

/-- The words of an instruction stand in memory from the pointer on, none past the last address. -/
def State.HoldsAtPointer (s : State) (ws : List Word) : Prop :=
  s.pc.toNat + ws.length ≤ 32768 ∧ ∀ k, (h : k < ws.length) → s.mem.wordAt (s.pc.toNat + k) = ws[k]

/-- Word `k` from the pointer on, the selector word being word 0 (R77). -/
def State.instrWord (s : State) (k : Nat) : Word := s.mem.wordAt (s.pc.toNat + k)

/-- The step fetches word `k` if no earlier check fails: the selector word, or an operand word of a selector of the
table (R80, R81). -/
def State.AsksForWord (s : State) (k : Nat) : Prop :=
  k = 0 ∨ (s.pc.toNat ≤ 32767 ∧ (s.instrWord 0).toNat ≤ 21 ∧ k ≤ operandCount (s.instrWord 0).toNat)

/-! ## The parts of the state a frame names -/

/-- Every register is as before. -/
def SameRegs (s t : State) : Prop := ∀ r, t.reg r = s.reg r

/-- Every register but `d` is as before. -/
def SameRegsBut (d : RegIdx) (s t : State) : Prop := ∀ r, r ≠ d → t.reg r = s.reg r

/-- Every byte of memory reads as before. -/
def SameMemory (s t : State) : Prop := ∀ a, t.mem.byteAt a = s.mem.byteAt a

/-- Every byte of memory outside the two bytes of word `w` reads as before. -/
def SameMemoryBut (w : Nat) (s t : State) : Prop :=
  ∀ a, a ≠ 2 * w → a ≠ 2 * w + 1 → t.mem.byteAt a = s.mem.byteAt a

/-- The stack is as before. -/
def SameStack (s t : State) : Prop := t.stack = s.stack

/-- The run status, the fault record and the wait are as before. -/
def SameStatus (s t : State) : Prop := t.status = s.status ∧ t.waiting = s.waiting

/-- The output trace, the input answers consumed and the ports are as before. -/
def SameIo (s t : State) : Prop := t.outTrace = s.outTrace ∧ t.inTrace = s.inTrace ∧ t.ports = s.ports

/-- The build parameters are as before. -/
def SameBuild (s t : State) : Prop := t.build = s.build

/-- Nothing but the pointer differs. -/
def OnlyPointer (s t : State) : Prop :=
  SameRegs s t ∧ SameMemory s t ∧ SameStack s t ∧ SameStatus s t ∧ SameIo s t ∧ SameBuild s t

/-- Nothing but register `d` and the pointer differs, and the pointer stands after the `n` words of the instruction. -/
def OnlyRegister (d : RegIdx) (n : Nat) (s t : State) : Prop :=
  SameRegsBut d s t ∧ t.pc = s.pc + BitVec.ofNat 16 n ∧ SameMemory s t ∧ SameStack s t ∧ SameStatus s t ∧ SameIo s t ∧
    SameBuild s t

/-- The fault of cause `c` was taken by the instruction that started at `start`, as R210 says: the status, the fault
address and the pointer, and registers, stack, memory, the output trace and the build as the step found them. -/
def FaultTaken (c : Cause) (start : Word) (s t : State) : Prop :=
  t.status = .faulted c start ∧ t.pc = start ∧ t.waiting = none ∧ SameRegs s t ∧ SameMemory s t ∧ SameStack s t ∧
    t.outTrace = s.outTrace ∧ SameBuild s t

end Sys2Proof.Machine
end

