-- ==== Sys2Proof/Certificates/Slice0/Obligations.lean ====
section
/-! DEFINITION. The statements about the model. Each says the rule of the spec it formalises, or the choice of the model's log
or the decision D<n> of the spec it rests on. Where a statement says that a fault is taken, `FaultTaken` spells out R210,
whose pointer and fault address are the spec's own decision D6. -/

open Sys2Proof Sys2Proof.Machine

/-! ## Encoding -/

/-- Words written out from R78 and R71 decode to the instruction they stand for, one of each family. -/
def Obligations.WrittenWordsDecode : Prop :=
  decode [0x0000] = .ok .halt ∧
  decode [0x0001, 0x8000, 0x0005] = .ok (.set (.reg 0) (.imm 5)) ∧
  decode [0x0003, 0x8007] = .ok (.pop (.reg 7)) ∧
  decode [0x0005, 0x8001, 0x0003, 0x8002] = .ok (.gt (.reg 1) (.imm 3) (.reg 2)) ∧
  decode [0x0007, 0x8000, 0x7FFF] = .ok (.jt (.reg 0) (.imm 32767)) ∧
  decode [0x000B, 0x8002, 0x000A, 0x0003] = .ok (.mod (.reg 2) (.imm 10) (.imm 3)) ∧
  decode [0x0010, 0x0064, 0x002A] = .ok (.wmem (.imm 100) (.imm 42)) ∧
  decode [0x0012] = .ok .ret ∧
  decode [0x0014, 0x8000] = .ok (.inp (.reg 0))

/-- The decoder gives back every instruction from its words, whatever words follow: every operand at every value. -/
def Obligations.DecodeOfEncodeGivesTheInstruction : Prop :=
  ∀ (i : Instr) (rest : List Word), decode (encode i ++ rest) = .ok i

/-- The words a decoded instruction begins are exactly its encoding: each sequence of words has one meaning. -/
def Obligations.DecodedWordsBeginWithTheEncoding : Prop :=
  ∀ (ws : List Word) (i : Instr), decode ws = .ok i → ∃ rest, ws = encode i ++ rest

/-- R72: the three classes of a word, with the value and the index. R73: an immediate resolves to that value and a
register reference to the contents of that register. -/
def Obligations.OperandWordsFallInThreeClasses : Prop :=
  ∀ (w : Word) (s : State),
    (w.toNat ≤ 32767 → ∃ v : Val, decodeOperand w = .ok (.imm v) ∧ v.toNat = w.toNat ∧ resolve s (.imm v) = v) ∧
    (32768 ≤ w.toNat → w.toNat ≤ 32775 → ∃ r : RegIdx, decodeOperand w = .ok (.reg r) ∧ r.val = w.toNat - 32768 ∧
      resolve s (.reg r) = s.reg r) ∧
    (32776 ≤ w.toNat → decodeOperand w = .error .decodeError)

/-- R80: the length of a decoded instruction follows from its selector word alone. -/
def Obligations.LengthFollowsFromTheSelector : Prop :=
  ∀ (w : Word) (ws : List Word) (i : Instr), decode (w :: ws) = .ok i →
    w.toNat ≤ 21 ∧ i.length = 1 + operandCount w.toNat

/-! ## The instruction cycle -/

/-- A step runs the instruction that the fetched words decode to. -/
def Obligations.StepRunsTheDecodedInstruction : Prop :=
  ∀ (s : State) (i : Instr), s.status = .running → s.waiting = none → decode (fetchWords s) = .ok i →
    step s = exec i s

/-- A step runs the instruction whose words stand in memory from the pointer on, at whatever address and up to the
very end of memory. -/
def Obligations.StepRunsTheInstructionInMemory : Prop :=
  ∀ (s : State) (i : Instr), s.status = .running → s.waiting = none → s.HoldsAtPointer (encode i) →
    step s = exec i s

/-- The step after `withFetchWord` runs the table word's instruction, where the longest instruction fits. The placing
itself is the model's stand-in for a program load (entry 14). -/
def Obligations.PlacedTableWordRuns : Prop :=
  ∀ (s : State) (nbits w : Nat) (i : Instr), s.mem.wf = true → s.pc.toNat ≤ 32764 →
    decodeTableWord nbits w = some i → step (s.withFetchWord nbits w) = exec i (s.withFetchWord nbits w)

/-- The three ranges of a malformed selector word and their causes, for every machine that fetches one: R79, which is
the spec's own decision D4. -/
def Obligations.MalformedSelectorFaults : Prop :=
  ∀ s : State, s.status = .running → s.waiting = none → s.pc.toNat ≤ 32767 →
    ((s.mem.wordAt s.pc.toNat).toNat ≥ 32776 → ∃ t, step s = .next t ∧ FaultTaken .decodeError s.pc s t) ∧
    ((s.mem.wordAt s.pc.toNat).toNat ≥ 32768 → (s.mem.wordAt s.pc.toNat).toNat ≤ 32775 →
      ∃ t, step s = .next t ∧ FaultTaken .typeError s.pc s t) ∧
    ((s.mem.wordAt s.pc.toNat).toNat ≥ 22 → (s.mem.wordAt s.pc.toNat).toNat ≤ 32767 →
      ∃ t, step s = .next t ∧ FaultTaken .unknownOpcode s.pc s t)

/-- A fetch of a selector at pointer 32768 faults with `UnmappedAddress` and the pointer does not wrap: R29, which is
the spec's own decision D2. -/
def Obligations.FetchPastTheEndFaults : Prop :=
  ∀ s : State, s.status = .running → s.waiting = none → s.pc.toNat = 32768 →
    ∃ t, step s = .next t ∧ FaultTaken .unmappedAddress s.pc s t ∧ t.pc.toNat = 32768

/-- The order of R82, which is the spec's own decision D5, for the operand words: the first word that cannot be
fetched, is invalid, or is an immediate where a destination stands decides the fault, whatever the words after it are.
Words before it are good: fetched, valid, and a register where a destination stands. -/
def Obligations.FirstBadOperandWordDecidesTheFault : Prop :=
  ∀ (s : State) (k : Nat), s.status = .running → s.waiting = none → s.pc.toNat ≤ 32767 →
    (s.mem.wordAt s.pc.toNat).toNat ≤ 21 →
    1 ≤ k → k ≤ operandCount (s.mem.wordAt s.pc.toNat).toNat →
    (∀ j, 1 ≤ j → j < k → (s.mem.wordAt (s.pc.toNat + j)).toNat ≤ 32775 ∧
      (j = 1 → hasDestination (s.mem.wordAt s.pc.toNat).toNat = true → 32768 ≤ (s.mem.wordAt (s.pc.toNat + j)).toNat)) →
    (s.pc.toNat + k = 32768 → ∃ t, step s = .next t ∧ FaultTaken .unmappedAddress s.pc s t) ∧
    (s.pc.toNat + k ≤ 32767 → 32776 ≤ (s.mem.wordAt (s.pc.toNat + k)).toNat →
      ∃ t, step s = .next t ∧ FaultTaken .decodeError s.pc s t) ∧
    (s.pc.toNat + k ≤ 32767 → k = 1 → hasDestination (s.mem.wordAt s.pc.toNat).toNat = true →
      (s.mem.wordAt (s.pc.toNat + k)).toNat ≤ 32767 → ∃ t, step s = .next t ∧ FaultTaken .typeError s.pc s t)

/-- R74: the kind check of a destination operand, and every instruction whose destination is an immediate takes
`TypeError` and does nothing else, not even to the ports. That the check of an otherwise good instruction is made
when it executes is the model's arrangement (entry 9). -/
def Obligations.ImmediateDestinationTakesTypeError : Prop :=
  (∀ r : RegIdx, requireRegister (.reg r) = .ok r) ∧
  (∀ v : Val, requireRegister (.imm v) = .error .typeError) ∧
  (∀ (i : Instr) (s : State), i.wf = false →
    ∃ t, exec i s = .next t ∧ FaultTaken .typeError s.pc s t ∧ SameIo s t)

/-- From R28: an instruction that transfers no control and goes on leaves the pointer after its last word. -/
def Obligations.NextInstructionStartsAfterTheLastWord : Prop :=
  ∀ (s t : State) (i : Instr), s.nextInstr = some i → step s = .next t → t.ended = false →
    (∀ a, i ≠ .jmp a) → (∀ a b, i ≠ .jt a b) → (∀ a b, i ≠ .jf a b) → (∀ a, i ≠ .call a) → i ≠ .ret →
    t.pc = s.pc + BitVec.ofNat 16 i.length

/-- No step of this machine ends in a refusal or in a fault outcome: every sequence of words has an outcome that is a
state (R84). -/
def Obligations.EveryStepAnswersAState : Prop := ∀ s : State, ∃ t, step s = .next t

/-! ## Machine control, register move and stack -/

/-- From R100. That the step after it answers the same state is the form the model chose for R35 (entry 16). -/
def Obligations.HaltEndsTheRun : Prop :=
  (∀ rest : List Word, decode (0 :: rest) = .ok .halt) ∧
  (∀ s : State, ∃ t, exec .halt s = .next t ∧ t.status = .halted ∧ t.pc = s.pc + 1 ∧ step t = .next t ∧
    t.waiting = s.waiting ∧
     SameRegs s t ∧ SameMemory s t ∧ SameStack s t ∧ SameIo s t ∧ SameBuild s t)

/-- R101. -/
def Obligations.NoopOnlyMovesThePointer : Prop :=
  (∀ rest : List Word, decode (21 :: rest) = .ok .noop) ∧
  (∀ s : State, ∃ t, exec .noop s = .next t ∧ t.pc = s.pc + 1 ∧ OnlyPointer s t)

/-- R110. -/
def Obligations.SetWritesTheValue : Prop :=
  (∀ (d : RegIdx) (a : Operand) (rest : List Word),
    decode (1 :: encodeOperand (.reg d) :: encodeOperand a :: rest) = .ok (.set (.reg d) a)) ∧
  (∀ (s : State) (d : RegIdx) (a : Operand), ∃ t, exec (.set (.reg d) a) s = .next t ∧
     t.reg d = resolve s a ∧ OnlyRegister d 3 s t)

/-- R111: where the capacity leaves room. -/
def Obligations.PushAppendsTheValue : Prop :=
  (∀ (a : Operand) (rest : List Word), decode (2 :: encodeOperand a :: rest) = .ok (.push a)) ∧
  (∀ (s : State) (a : Operand), s.build.stackCapacity ≠ some s.stack.length →
     ∃ t, exec (.push a) s = .next t ∧ t.stack = s.stack ++ [resolve s a] ∧ t.pc = s.pc + 2 ∧
       SameRegs s t ∧ SameMemory s t ∧ SameStatus s t ∧ SameIo s t ∧ SameBuild s t)

/-- `Push` with a full stack and with room, and `push` and `call` on a full stack take `StackOverflow` (a `call` whose
return address is a value): R32, which is the spec's own decision D7 (entry 4). -/
def Obligations.FullStackOverflows : Prop :=
  (∀ (s : State) (v : Val), s.build.stackCapacity = some s.stack.length → push v s = .error .stackOverflow) ∧
  (∀ (s : State) (v : Val), s.build.stackCapacity ≠ some s.stack.length →
    push v s = .ok { s with stack := s.stack ++ [v] }) ∧
  (∀ (s : State) (v : Val), s.build.stackCapacity = none → push v s = .ok { s with stack := s.stack ++ [v] }) ∧
  (∀ (s : State) (a : Operand), s.build.stackCapacity = some s.stack.length →
    ∃ t, exec (.push a) s = .next t ∧ FaultTaken .stackOverflow s.pc s t ∧ SameIo s t) ∧
  (∀ (s : State) (a : Operand), s.pc.toNat + 2 ≤ 32767 → s.build.stackCapacity = some s.stack.length →
    ∃ t, exec (.call a) s = .next t ∧ FaultTaken .stackOverflow s.pc s t ∧ SameIo s t)

/-- From R112: `pop` takes the top, and faults on an empty stack with the register unchanged. The pointer and the fault
address of that fault (R210) are the spec's own decision D6 (entries 1 and 10). -/
def Obligations.PopTakesTheTop : Prop :=
  (∀ (d : RegIdx) (rest : List Word), decode (3 :: encodeOperand (.reg d) :: rest) = .ok (.pop (.reg d))) ∧
  (∀ (s : State) (d : RegIdx) (v : Val) (below : List Val), s.stack = below ++ [v] →
    ∃ t, exec (.pop (.reg d)) s = .next t ∧ t.reg d = v ∧ t.stack = below ∧ t.pc = s.pc + 2 ∧
      SameRegsBut d s t ∧ SameMemory s t ∧ SameStatus s t ∧ SameIo s t ∧ SameBuild s t) ∧
  (∀ (s : State) (d : RegIdx), s.stack = [] →
    ∃ t, exec (.pop (.reg d)) s = .next t ∧ FaultTaken .stackUnderflow s.pc s t ∧ SameIo s t)

/-! ## Comparisons and jumps -/

/-- R120. -/
def Obligations.EqWritesWhetherEqual : Prop :=
  (∀ (d : RegIdx) (a b : Operand) (rest : List Word),
    decode (4 :: encodeOperand (.reg d) :: encodeOperand a :: encodeOperand b :: rest) = .ok (.eq (.reg d) a b)) ∧
  (∀ (s : State) (d : RegIdx) (a b : Operand), ∃ t, exec (.eq (.reg d) a b) s = .next t ∧
     ((resolve s a).toNat = (resolve s b).toNat → (t.reg d).toNat = 1) ∧
     ((resolve s a).toNat ≠ (resolve s b).toNat → (t.reg d).toNat = 0) ∧ OnlyRegister d 4 s t)

/-- R121, unsigned. -/
def Obligations.GtWritesWhetherGreater : Prop :=
  (∀ (d : RegIdx) (a b : Operand) (rest : List Word),
    decode (5 :: encodeOperand (.reg d) :: encodeOperand a :: encodeOperand b :: rest) = .ok (.gt (.reg d) a b)) ∧
  (∀ (s : State) (d : RegIdx) (a b : Operand), ∃ t, exec (.gt (.reg d) a b) s = .next t ∧
     ((resolve s a).toNat > (resolve s b).toNat → (t.reg d).toNat = 1) ∧
     ((resolve s a).toNat ≤ (resolve s b).toNat → (t.reg d).toNat = 0) ∧ OnlyRegister d 4 s t)

/-- R130. -/
def Obligations.JmpSetsThePointer : Prop :=
  (∀ (a : Operand) (rest : List Word), decode (6 :: encodeOperand a :: rest) = .ok (.jmp a)) ∧
  (∀ (s : State) (a : Operand), ∃ t, exec (.jmp a) s = .next t ∧
     t.pc.toNat = (resolve s a).toNat ∧ OnlyPointer s t)

/-- R131. -/
def Obligations.JtJumpsOnNonzero : Prop :=
  (∀ (a b : Operand) (rest : List Word),
    decode (7 :: encodeOperand a :: encodeOperand b :: rest) = .ok (.jt a b)) ∧
  (∀ (s : State) (a b : Operand), ∃ t, exec (.jt a b) s = .next t ∧
     ((resolve s a).toNat ≠ 0 → t.pc.toNat = (resolve s b).toNat) ∧
     ((resolve s a).toNat = 0 → t.pc = s.pc + 3) ∧ OnlyPointer s t)

/-- R132. -/
def Obligations.JfJumpsOnZero : Prop :=
  (∀ (a b : Operand) (rest : List Word),
    decode (8 :: encodeOperand a :: encodeOperand b :: rest) = .ok (.jf a b)) ∧
  (∀ (s : State) (a b : Operand), ∃ t, exec (.jf a b) s = .next t ∧
     ((resolve s a).toNat = 0 → t.pc.toNat = (resolve s b).toNat) ∧
     ((resolve s a).toNat ≠ 0 → t.pc = s.pc + 3) ∧ OnlyPointer s t)

/-! ## The ALU -/

/-- R145. -/
def Obligations.AddWritesTheSumModulo32768 : Prop :=
  (∀ (d : RegIdx) (a b : Operand) (rest : List Word),
    decode (9 :: encodeOperand (.reg d) :: encodeOperand a :: encodeOperand b :: rest) = .ok (.add (.reg d) a b)) ∧
  (∀ (s : State) (d : RegIdx) (a b : Operand), ∃ t, exec (.add (.reg d) a b) s = .next t ∧
     (t.reg d).toNat = ((resolve s a).toNat + (resolve s b).toNat) % 32768 ∧ OnlyRegister d 4 s t)

/-- R146. -/
def Obligations.MultWritesTheProductModulo32768 : Prop :=
  (∀ (d : RegIdx) (a b : Operand) (rest : List Word),
    decode (10 :: encodeOperand (.reg d) :: encodeOperand a :: encodeOperand b :: rest) = .ok (.mult (.reg d) a b)) ∧
  (∀ (s : State) (d : RegIdx) (a b : Operand), ∃ t, exec (.mult (.reg d) a b) s = .next t ∧
     (t.reg d).toNat = (resolve s a).toNat * (resolve s b).toNat % 32768 ∧ OnlyRegister d 4 s t)

/-- From R147: the remainder, and `DivisionByZero` with the destination unchanged. The pointer and the fault address of
that fault (R210) are the spec's own decision D6 (entries 1 and 10). -/
def Obligations.ModWritesTheRemainder : Prop :=
  (∀ (d : RegIdx) (a b : Operand) (rest : List Word),
    decode (11 :: encodeOperand (.reg d) :: encodeOperand a :: encodeOperand b :: rest) = .ok (.mod (.reg d) a b)) ∧
  (∀ (s : State) (d : RegIdx) (a b : Operand), (resolve s b).toNat ≠ 0 →
    ∃ t, exec (.mod (.reg d) a b) s = .next t ∧
      (t.reg d).toNat = (resolve s a).toNat % (resolve s b).toNat ∧ OnlyRegister d 4 s t) ∧
  (∀ (s : State) (d : RegIdx) (a b : Operand), (resolve s b).toNat = 0 →
    ∃ t, exec (.mod (.reg d) a b) s = .next t ∧ FaultTaken .divisionByZero s.pc s t ∧ SameIo s t)

/-- R148. -/
def Obligations.AndWritesTheConjunction : Prop :=
  (∀ (d : RegIdx) (a b : Operand) (rest : List Word),
    decode (12 :: encodeOperand (.reg d) :: encodeOperand a :: encodeOperand b :: rest) = .ok (.and (.reg d) a b)) ∧
  (∀ (s : State) (d : RegIdx) (a b : Operand), ∃ t, exec (.and (.reg d) a b) s = .next t ∧
     (t.reg d).toNat = ((resolve s a).toNat &&& (resolve s b).toNat) &&& 0x7FFF ∧ OnlyRegister d 4 s t)

/-- R149. -/
def Obligations.OrWritesTheDisjunction : Prop :=
  (∀ (d : RegIdx) (a b : Operand) (rest : List Word),
    decode (13 :: encodeOperand (.reg d) :: encodeOperand a :: encodeOperand b :: rest) = .ok (.or (.reg d) a b)) ∧
  (∀ (s : State) (d : RegIdx) (a b : Operand), ∃ t, exec (.or (.reg d) a b) s = .next t ∧
     (t.reg d).toNat = ((resolve s a).toNat ||| (resolve s b).toNat) &&& 0x7FFF ∧ OnlyRegister d 4 s t)

/-- R150: the 15-bit complement. -/
def Obligations.NotWritesTheComplement : Prop :=
  (∀ (d : RegIdx) (a : Operand) (rest : List Word),
    decode (14 :: encodeOperand (.reg d) :: encodeOperand a :: rest) = .ok (.not (.reg d) a)) ∧
  (∀ (s : State) (d : RegIdx) (a : Operand), ∃ t, exec (.not (.reg d) a) s = .next t ∧
     (t.reg d).toNat = (resolve s a).toNat ^^^ 0x7FFF ∧ OnlyRegister d 3 s t)

/-- R141: addition and multiplication, both commutative and associative under mod 32768. -/
def Obligations.RingLawsHold : Prop :=
  (∀ a b : Val, (ringAdd a b).toNat = (a.toNat + b.toNat) % 32768) ∧
  (∀ a b : Val, (ringMult a b).toNat = a.toNat * b.toNat % 32768) ∧
  (∀ a b : Val, ringAdd a b = ringAdd b a) ∧ (∀ a b : Val, ringMult a b = ringMult b a) ∧
  (∀ a b c : Val, ringAdd (ringAdd a b) c = ringAdd a (ringAdd b c)) ∧
  (∀ a b c : Val, ringMult (ringMult a b) c = ringMult a (ringMult b c))

/-- R142: for a divisor that is not 0, the unique remainder below it, and a fault for the divisor 0. -/
def Obligations.RemainderIsTheUniqueOne : Prop :=
  (∀ a b : Val, b.toNat ≠ 0 → ∃ r : Val, ringMod a b = .ok r ∧ r.toNat < b.toNat ∧ r.toNat ≤ a.toNat ∧
    (∃ q, a.toNat = q * b.toNat + r.toNat) ∧
    ∀ x : Nat, x < b.toNat → (∃ q, a.toNat = q * b.toNat + x) → x = r.toNat) ∧
  (∀ a b : Val, b.toNat = 0 → ringMod a b = .error .divisionByZero)

/-- The consequences that R144 derives: adding 32767 decrements, and adding the complement plus one subtracts. -/
def Obligations.ComplementSubtracts : Prop :=
  (∀ a : Val, (ringAdd a 32767).toNat = (a.toNat + 32767) % 32768 ∧ ringAdd (ringAdd a 32767) 1 = a) ∧
  (∀ a b : Val, (ringAdd a (ringAdd (ringNot b) 1)).toNat = (a.toNat + (32768 - b.toNat)) % 32768)

/-! ## Memory -/

/-- From R160: a word up to 32767 is written unchanged, and a larger one faults with `InvalidValue`. The pointer and the
fault address of that fault (R210) are the spec's own decision D6 (entries 1 and 10). -/
def Obligations.RmemReadsTheWord : Prop :=
  (∀ (d : RegIdx) (a : Operand) (rest : List Word),
    decode (15 :: encodeOperand (.reg d) :: encodeOperand a :: rest) = .ok (.rmem (.reg d) a)) ∧
  (∀ (s : State) (d : RegIdx) (a : Operand), (s.mem.wordAt (resolve s a).toNat).toNat ≤ 32767 →
    ∃ t, exec (.rmem (.reg d) a) s = .next t ∧
      (t.reg d).toNat = (s.mem.wordAt (resolve s a).toNat).toNat ∧ OnlyRegister d 3 s t) ∧
  (∀ (s : State) (d : RegIdx) (a : Operand), (s.mem.wordAt (resolve s a).toNat).toNat > 32767 →
    ∃ t, exec (.rmem (.reg d) a) s = .next t ∧ FaultTaken .invalidValue s.pc s t ∧ SameIo s t)

/-- R161: the value is stored as the word of the same number at the address its first operand gives, and no other
byte of memory changes. The word reads back where memory is in its canonical form, which every step keeps. -/
def Obligations.WmemStoresTheValue : Prop :=
  (∀ (a b : Operand) (rest : List Word),
    decode (16 :: encodeOperand a :: encodeOperand b :: rest) = .ok (.wmem a b)) ∧
  (∀ (s : State) (a b : Operand), ∃ t, exec (.wmem a b) s = .next t ∧
     (s.mem.wf = true → (t.mem.wordAt (resolve s a).toNat).toNat = (resolve s b).toNat) ∧
     SameMemoryBut (resolve s a).toNat s t ∧ t.pc = s.pc + 3 ∧
     SameRegs s t ∧ SameStack s t ∧ SameStatus s t ∧ SameIo s t ∧ SameBuild s t)

/-- A value stored by `wmem` is what a following `rmem` of the same address reads, for every address and value. -/
def Obligations.StoredValueReadsBack : Prop :=
  ∀ (s t : State) (a b a' : Operand) (d : RegIdx), s.mem.wf = true → exec (.wmem a b) s = .next t →
    resolve t a' = resolve s a →
    ∃ u, exec (.rmem (.reg d) a') t = .next u ∧ u.reg d = resolve s b ∧ OnlyRegister d 3 t u

/-- From R63, a derived rule of the spec: a word written by `wmem` is seen by the fetch of the very next instruction. -/
def Obligations.StoredWordIsFetchedNext : Prop :=
  ∀ (s t : State) (a b : Operand), s.mem.wf = true → exec (.wmem a b) s = .next t →
    s.pc.toNat + 3 ≤ 32767 → (resolve s a).toNat = s.pc.toNat + 3 →
    ∃ w rest, fetchWords t = w :: rest ∧ w.toNat = (resolve s b).toNat

/-- Whatever step changes a byte of memory runs a `wmem`, and changes only the word at its address. -/
def Obligations.OnlyWmemChangesMemory : Prop :=
  ∀ s t : State, step s = .next t → ¬ SameMemory s t →
    ∃ a b, s.nextInstr = some (.wmem a b) ∧ SameMemoryBut (resolve s a).toNat s t

/-! ## Call and return -/

/-- R170. The fault on the return address 32768 is the spec's own decision D3, and that it comes before the capacity
check (R204) its decision D5. -/
def Obligations.CallPushesTheReturnAddress : Prop :=
  (∀ (a : Operand) (rest : List Word), decode (17 :: encodeOperand a :: rest) = .ok (.call a)) ∧
  (∀ (s : State) (a : Operand), s.pc.toNat + 2 ≤ 32767 → s.build.stackCapacity ≠ some s.stack.length →
    ∃ t r, exec (.call a) s = .next t ∧ t.stack = s.stack ++ [r] ∧ r.toNat = s.pc.toNat + 2 ∧
      t.pc.toNat = (resolve s a).toNat ∧
      SameRegs s t ∧ SameMemory s t ∧ SameStatus s t ∧ SameIo s t ∧ SameBuild s t) ∧
  (∀ (s : State) (a : Operand), s.pc.toNat + 2 = 32768 →
    ∃ t, exec (.call a) s = .next t ∧ FaultTaken .invalidValue s.pc s t ∧ SameIo s t)

/-- R171: `ret` jumps to the popped value, or halts on an empty stack. -/
def Obligations.RetPopsThePointerOrHalts : Prop :=
  (∀ rest : List Word, decode (18 :: rest) = .ok .ret) ∧
  (∀ (s : State) (v : Val) (below : List Val), s.stack = below ++ [v] →
    ∃ t, exec .ret s = .next t ∧ t.pc.toNat = v.toNat ∧ t.stack = below ∧
      SameRegs s t ∧ SameMemory s t ∧ SameStatus s t ∧ SameIo s t ∧ SameBuild s t) ∧
  (∀ s : State, s.stack = [] →
    ∃ t, exec .ret s = .next t ∧ t.status = .halted ∧ t.pc = s.pc + 1 ∧ t.stack = [] ∧ t.waiting = s.waiting ∧
      SameRegs s t ∧ SameMemory s t ∧ SameIo s t ∧ SameBuild s t)

/-- A `ret` after a `call` restores the pointer that the `call` pushed, and the stack as it was. -/
def Obligations.RetUndoesCall : Prop :=
  ∀ (s t : State) (a : Operand), s.pc.toNat + 2 ≤ 32767 → s.build.stackCapacity ≠ some s.stack.length →
    exec (.call a) s = .next t → ∃ u, exec .ret t = .next u ∧ u.pc = s.pc + 2 ∧ u.stack = s.stack ∧
      SameRegs s u ∧ SameMemory s u ∧ SameStatus s u

/-! ## Input and output -/

/-- R180: an accepted value joins the output trace whole, a failed one takes `IOFailure` and joins nothing. Whatever
the port answers, one of the two cases holds: no value is an invalid scalar (R184, the spec's own decision D8; entry
13). The two answers of the port are its decision D12. -/
def Obligations.OutEmitsTheValue : Prop :=
  (∀ (a : Operand) (rest : List Word), decode (19 :: encodeOperand a :: rest) = .ok (.out a)) ∧
  (∀ (s : State) (a : Operand), outputAnswer s.ports = .accepted →
    ∃ t, exec (.out a) s = .next t ∧ t.outTrace = s.outTrace ++ [resolve s a] ∧ t.pc = s.pc + 2 ∧
      t.inTrace = s.inTrace ∧ SameRegs s t ∧ SameMemory s t ∧ SameStack s t ∧ SameStatus s t ∧ SameBuild s t) ∧
  (∀ (s : State) (a : Operand), outputAnswer s.ports = .failed →
    ∃ t, exec (.out a) s = .next t ∧ FaultTaken .ioFailure s.pc s t ∧ t.inTrace = s.inTrace)

/-- From R187: a byte is written zero-extended, `Closed` takes `IOFailure` with the destination unchanged, without an
answer the machine waits, and an `in` with an immediate destination faults and consumes no input. What answers is the
spec's own decision D12 (entry 6), the pointer and fault address of a fault (R210) its decision D6. How the wait and the
answers consumed are held is the model's (entry 7), and that `exec` meets an immediate destination too (entry 9). -/
def Obligations.InWritesTheByte : Prop :=
  (∀ (d : RegIdx) (rest : List Word), decode (20 :: encodeOperand (.reg d) :: rest) = .ok (.inp (.reg d))) ∧
  (∀ (s : State) (d : RegIdx) (b : Byte), inputEvent s = some (.byte b) →
    ∃ t, exec (.inp (.reg d)) s = .next t ∧ (t.reg d).toNat = b.toNat ∧ t.pc = s.pc + 2 ∧ t.waiting = none ∧
      t.status = s.status ∧ t.inTrace = s.inTrace ++ [.byte b] ∧ t.outTrace = s.outTrace ∧
      SameRegsBut d s t ∧ SameMemory s t ∧ SameStack s t ∧ SameBuild s t) ∧
  (∀ (s : State) (d : RegIdx), inputEvent s = some .closed →
    ∃ t, exec (.inp (.reg d)) s = .next t ∧ FaultTaken .ioFailure s.pc s t) ∧
  (∀ (s : State) (d : RegIdx), inputEvent s = none →
    ∃ t, exec (.inp (.reg d)) s = .next t ∧ (∃ p, t.waiting = some p) ∧ t.status = s.status ∧
      SameRegs s t ∧ t.inTrace = s.inTrace) ∧
  (∀ (s : State) (v : Val), ∃ t, exec (.inp (.imm v)) s = .next t ∧ FaultTaken .typeError s.pc s t ∧ SameIo s t)

/-- With no answer yet the machine waits: no register, memory word or stack entry changes, no answer is consumed, and
it stays Running. Where the pointer stands meanwhile is the model's reading (entry 7). -/
def Obligations.InWaitsWithoutAnAnswer : Prop :=
  ∀ (s : State) (d : RegIdx), inputEvent s = none →
    ∃ t, exec (.inp (.reg d)) s = .next t ∧ t.waiting = some { dest := d, start := s.pc } ∧ t.pc = s.pc + 2 ∧
      t.status = s.status ∧ t.inTrace = s.inTrace ∧ t.outTrace = s.outTrace ∧
      SameRegs s t ∧ SameMemory s t ∧ SameStack s t ∧ SameBuild s t

/-- A waiting machine goes on only with the port's answer: a byte goes to the waiting `in`'s destination, `Closed`
takes the fault at its start, and without an answer all of the spec's state stays as it is (R226). -/
def Obligations.WaitIsLeftOnlyByAnAnswer : Prop :=
  ∀ (s : State) (p : PendingRead), s.Inv → s.waiting = some p →
    (inputEvent s = none → ∃ t, step s = .next t ∧ t.observe = s.observe ∧ t.waiting = s.waiting ∧ SameBuild s t) ∧
    (∀ b, inputEvent s = some (.byte b) → ∃ t, step s = .next t ∧ t.waiting = none ∧ t.status = .running ∧
      (t.reg p.dest).toNat = b.toNat ∧ t.inTrace = s.inTrace ++ [.byte b] ∧ t.outTrace = s.outTrace ∧
      t.pc = p.start + 2 ∧ SameRegsBut p.dest s t ∧ SameMemory s t ∧ SameStack s t ∧ SameBuild s t) ∧
    (inputEvent s = some .closed → ∃ t, step s = .next t ∧ FaultTaken .ioFailure p.start s t)

/-- The sentinel byte never answers a read: an `in` that meets it goes on waiting (R186). -/
def Obligations.SentinelNeverAnswersARead : Prop :=
  (∀ (s : State) (b : Byte), s.build.sentinel = some b → inputEvent s ≠ some (.byte b)) ∧
  (∀ (s : State) (d : RegIdx) (b : Byte), s.build.sentinel = some b → inputRaw s.ports = some (.byte b) →
    ∃ t, exec (.inp (.reg d)) s = .next t ∧ t.waiting = some { dest := d, start := s.pc } ∧
      SameRegs s t ∧ t.inTrace = s.inTrace)

/-! ## Faults -/

/-- R210: whatever fault a running machine takes, the fault address and the pointer are the start of the instruction
(the spec's own decision D6), and registers, stack, memory and output trace are as the step found them. Execution
stops there. -/
def Obligations.FaultsArePrecise : Prop :=
  ∀ (s t : State) (c : Cause) (a : Word), s.status = .running → step s = .next t → t.status = .faulted c a →
    FaultTaken c s.start s t ∧ a = s.start ∧ ∀ k, Host.Core.run Sys2Proof.core k t = .next t

/-- The table of R200, in one direction: each cause is raised only by what its row names and on its row's condition. A
fetch at a pointer above 32768 is named beside the one at 32768 because the statement is about every state. No run
reaches one (R27). Where the table itself is the spec's decision, that is D3 (the return address), D4 (the selector),
D2 (the fetch at 32768), D7 (`StackOverflow`), D8 (`InvalidScalarValue`) and D12 (the output port). -/
def Obligations.CausesAreRaisedOnlyByTheirInstructions : Prop :=
  ∀ (s t : State) (c : Cause) (a : Word), s.status = .running → step s = .next t → t.status = .faulted c a →
    (c = .decodeError → s.waiting = none ∧ s.nextInstr = none ∧
      ∃ k, s.AsksForWord k ∧ s.pc.toNat + k ≤ 32767 ∧ 32776 ≤ (s.instrWord k).toNat) ∧
    (c = .typeError → s.waiting = none ∧ s.pc.toNat ≤ 32767 ∧
      ((32768 ≤ (s.instrWord 0).toNat ∧ (s.instrWord 0).toNat ≤ 32775) ∨
       ((s.instrWord 0).toNat ≤ 21 ∧ hasDestination (s.instrWord 0).toNat = true ∧ s.pc.toNat + 1 ≤ 32767 ∧
        (s.instrWord 1).toNat ≤ 32767)) ∧
      (s.nextInstr = none ∨ ∃ i, s.nextInstr = some i ∧ i.wf = false)) ∧
    (c = .unknownOpcode → s.waiting = none ∧ s.nextInstr = none ∧ s.pc.toNat ≤ 32767 ∧
      22 ≤ (s.instrWord 0).toNat ∧ (s.instrWord 0).toNat ≤ 32767) ∧
    (c = .stackUnderflow → ∃ d, s.nextInstr = some (.pop d) ∧ s.stack = []) ∧
    (c = .unmappedAddress → s.waiting = none ∧ s.nextInstr = none ∧
      ((∃ k, s.AsksForWord k ∧ s.pc.toNat + k = 32768) ∨ 32768 < s.pc.toNat)) ∧
    (c = .invalidValue →
      (∃ d x, s.nextInstr = some (.rmem d x) ∧ (s.mem.wordAt (resolve s x).toNat).toNat > 32767) ∨
      (∃ x, s.nextInstr = some (.call x) ∧ (s.pc + 2).toNat > 32767)) ∧
    (c = .divisionByZero → ∃ d x y, s.nextInstr = some (.mod d x y) ∧ (resolve s y).toNat = 0) ∧
    c ≠ .invalidScalarValue ∧
    (c = .ioFailure →
      ((∃ x, s.nextInstr = some (.out x)) ∧ outputAnswer s.ports = .failed) ∨
      (((∃ d, s.nextInstr = some (.inp d)) ∨ s.waiting ≠ none) ∧ inputEvent s = some .closed)) ∧
    (c = .stackOverflow → s.build.stackCapacity = some s.stack.length ∧
      ((∃ x, s.nextInstr = some (.push x)) ∨ (∃ x, s.nextInstr = some (.call x))))

/-- The fields of the status register in each run status: R37 and R201, which are the spec's own decision D9. -/
def Obligations.StatusRegisterShowsTheRunStatus : Prop :=
  (∀ s : State, s.status = .running → s.stateField = 0 ∧ s.causeField = 0) ∧
  (∀ s : State, s.status = .halted → s.stateField = 1 ∧ s.causeField = 0) ∧
  (∀ (s : State) (c : Cause) (a : Word), s.status = .faulted c a →
    s.stateField = 2 ∧ s.faultAddrField = a ∧
    (s.causeField.toNat = match c with
      | .decodeError => 1 | .typeError => 2 | .unknownOpcode => 3 | .stackUnderflow => 4 | .unmappedAddress => 5
      | .invalidValue => 6 | .divisionByZero => 7 | .invalidScalarValue => 8 | .ioFailure => 9 | .stackOverflow => 10)) ∧
  (∀ s : State, s.stateField ≠ 3 ∧ s.causeField.toNat ≤ 10)

/-! ## Reset, load and the end of a run -/

/-- The state after reset, every field, with an empty image. -/
def Obligations.ResetStateIsAsTheTableSays : Prop :=
  (∀ r, (State.reset.reg r).toNat = 0) ∧ State.reset.pc.toNat = 0 ∧ State.reset.stack = [] ∧
  (∀ a, (State.reset.mem.wordAt a).toNat = 0) ∧ State.reset.status = .running ∧ State.reset.waiting = none ∧
  State.reset.causeField = 0 ∧ State.reset.faultAddrField = 0 ∧ State.reset.outTrace = [] ∧
  State.reset.build.stackCapacity = none

/-- From R240 and R41: the machine a good image creates, word by word. That an image of odd length or of more than
32768 words creates no machine (R241) is the spec's own decision D10 (entry 10). That the record of input answers
starts empty is entry 7. -/
def Obligations.LoadCopiesTheImageOrRefuses : Prop :=
  (∀ (build : Build) (ports : Ports) (image : List Byte), image.length % 2 = 0 → image.length / 2 ≤ 32768 →
    ∃ t, load build ports image = .next t ∧
      (∀ i, i < 32768 → (t.mem.wordAt i).toNat =
        if i < image.length / 2 then (image.getD (2 * i) 0).toNat + 256 * (image.getD (2 * i + 1) 0).toNat else 0) ∧
      (∀ r, (t.reg r).toNat = 0) ∧ t.pc = 0 ∧ t.stack = [] ∧ t.status = .running ∧ t.waiting = none ∧
      t.causeField = 0 ∧ t.faultAddrField = 0 ∧
      t.outTrace = [] ∧ t.inTrace = [] ∧ t.build = build ∧ t.ports = ports) ∧
  (∀ (build : Build) (ports : Ports) (image : List Byte), image.length % 2 ≠ 0 ∨ image.length / 2 > 32768 →
    ∃ r, load build ports image = .refused r)

/-- An ended machine stays as it is for every number of steps (R35, in the form of entry 16). -/
def Obligations.EndedMachineNeverChanges : Prop :=
  ∀ (s : State) (k : Nat), s.ended = true → Host.Core.run Sys2Proof.core k s = .next s

/-- A running machine becomes Halted only by `halt`, or by `ret` on an empty stack (R250). -/
def Obligations.OnlyHaltAndEmptyRetEndNormally : Prop :=
  ∀ s t : State, s.status = .running → step s = .next t → t.status = .halted →
    s.nextInstr = some .halt ∨ (s.nextInstr = some .ret ∧ s.stack = [])

/-! ## Whole-machine rules -/

/-- The invariant holds at reset. -/
def Obligations.ResetHasTheInvariant : Prop := State.reset.Inv

/-- The invariant holds of every machine a load creates. -/
def Obligations.LoadedMachineHasTheInvariant : Prop :=
  ∀ (build : Build) (ports : Ports) (image : List Byte) (t : State), load build ports image = .next t → t.Inv

/-- Every step keeps the invariant. -/
def Obligations.StepKeepsTheInvariant : Prop :=
  ∀ s t : State, s.Inv → step s = .next t → t.Inv

/-- R34: what a step does to the stack, and which instructions do it. A `push` or `call` that does not end the run adds
one entry, a `pop` that does not end it removes one, and so does a `ret` on a stack that is not empty. No other step
touches the stack, and neither does a `ret` on an empty one. -/
def Obligations.OnlyFourInstructionsChangeTheStack : Prop :=
  ∀ s t : State, step s = .next t →
    (t.stack = s.stack ∨
     (((∃ a, s.nextInstr = some (.push a)) ∨ ∃ a, s.nextInstr = some (.call a)) ∧ ∃ v, t.stack = s.stack ++ [v]) ∨
     (((∃ d, s.nextInstr = some (.pop d)) ∨ s.nextInstr = some .ret) ∧ ∃ v, s.stack = t.stack ++ [v])) ∧
    (((∃ a, s.nextInstr = some (.push a)) ∨ ∃ a, s.nextInstr = some (.call a)) → t.ended = false →
      ∃ v, t.stack = s.stack ++ [v]) ∧
    ((∃ d, s.nextInstr = some (.pop d)) → t.ended = false → ∃ v, s.stack = t.stack ++ [v]) ∧
    (s.nextInstr = some .ret → s.stack ≠ [] → ∃ v, s.stack = t.stack ++ [v]) ∧
    (s.nextInstr = some .ret → s.stack = [] → t.stack = [])

/-- A register changes only as the destination operand of the instruction that runs, or of the `in` that waits. -/
def Obligations.RegistersChangeOnlyAsDestinations : Prop :=
  ∀ (s t : State) (r : RegIdx), step s = .next t → t.reg r ≠ s.reg r →
    (∃ i, s.nextInstr = some i ∧ i.dest? = some (.reg r)) ∨ (∃ p, s.waiting = some p ∧ p.dest = r)

/-- From R183, a derived rule of the spec: along any run the output trace keeps every entry, and the build never
changes. -/
def Obligations.OutputTraceOnlyGrows : Prop :=
  ∀ s t : State, Steps s t → (∃ more, t.outTrace = s.outTrace ++ more) ∧ (∃ more, t.inTrace = s.inTrace ++ more) ∧
    t.build = s.build
end

