-- ==== Sys2Proof/Laws/Decode.lean ====
section
/-! SUPPORT. The laws of the operand decoder and of the format decoders: what each answers, said once in both directions. -/

namespace Sys2Proof

/-! ## Operand words (R71, R72) -/

theorem decodeOperand_immediate (w : Word) (h : w.toNat ≤ 32767) :
    decodeOperand w = .ok (.imm (BitVec.ofNat 15 w.toNat)) := if_pos h

theorem decodeOperand_register (w : Word) (h : 32768 ≤ w.toNat) (h' : w.toNat ≤ 32775) :
    decodeOperand w = .ok (.reg (Fin.ofNat 8 (w.toNat - 32768))) := by
  have hn : ¬ w.toNat ≤ 32767 := by omega
  unfold decodeOperand
  rw [if_neg hn, if_pos h']

theorem decodeOperand_invalid (w : Word) (h : 32776 ≤ w.toNat) : decodeOperand w = .error .decodeError := by
  have hn : ¬ w.toNat ≤ 32767 := by omega
  have hm : ¬ w.toNat ≤ 32775 := by omega
  unfold decodeOperand
  rw [if_neg hn, if_neg hm]

theorem encodeOperand_imm_toNat (v : Val) : (encodeOperand (.imm v)).toNat = v.toNat := by
  have := v.isLt
  simp only [encodeOperand, BitVec.toNat_ofNat]
  omega

theorem encodeOperand_reg_toNat (r : RegIdx) : (encodeOperand (.reg r)).toNat = 32768 + r.val := by
  have := r.isLt
  simp only [encodeOperand, BitVec.toNat_ofNat]
  omega

/-- An operand decodes from its word. -/
@[simp] theorem decodeOperand_encodeOperand (op : Operand) : decodeOperand (encodeOperand op) = .ok op := by
  cases op with
  | imm v =>
    have hv := encodeOperand_imm_toNat v
    have := v.isLt
    rw [decodeOperand_immediate _ (by omega), hv]
    congr 2
    exact BitVec.eq_of_toNat_eq (by simp)
  | reg r =>
    have hr := encodeOperand_reg_toNat r
    have := r.isLt
    rw [decodeOperand_register _ (by omega) (by omega), hr, Nat.add_sub_cancel_left]
    congr 2
    exact Fin.ext (Nat.mod_eq_of_lt r.isLt)

/-- A word decodes to at most one operand, whose word it is. -/
theorem encodeOperand_of_decodeOperand (w : Word) (op : Operand) (h : decodeOperand w = .ok op) :
    encodeOperand op = w := by
  have hlt := w.isLt
  by_cases h1 : w.toNat ≤ 32767
  · rw [decodeOperand_immediate w h1] at h
    cases h
    apply BitVec.eq_of_toNat_eq
    rw [encodeOperand_imm_toNat]
    simp only [BitVec.toNat_ofNat]
    omega
  · by_cases h2 : w.toNat ≤ 32775
    · rw [decodeOperand_register w (by omega) h2] at h
      cases h
      apply BitVec.eq_of_toNat_eq
      rw [encodeOperand_reg_toNat]
      simp only [Fin.ofNat]
      omega
    · rw [decodeOperand_invalid w (by omega)] at h
      cases h

/-! ## The selector (R79) -/

theorem decodeSelector_immediate (w : Word) (h : w.toNat ≤ 32767) : decodeSelector w = .ok w.toNat := by
  simp only [decodeSelector, decodeOperand_immediate w h, requireImmediate, BitVec.toNat_ofNat]
  congr 1
  omega

theorem decodeSelector_register (w : Word) (h : 32768 ≤ w.toNat) (h' : w.toNat ≤ 32775) :
    decodeSelector w = .error .typeError := by
  simp only [decodeSelector, decodeOperand_register w h h', requireImmediate]

theorem decodeSelector_invalid (w : Word) (h : 32776 ≤ w.toNat) : decodeSelector w = .error .decodeError := by
  simp only [decodeSelector, decodeOperand_invalid w h]

/-- A selector that decodes is the word's own number. -/
theorem decodeSelector_ok (w : Word) (sel : Nat) (h : decodeSelector w = .ok sel) : sel = w.toNat ∧ w.toNat ≤ 32767 := by
  by_cases h1 : w.toNat ≤ 32767
  · rw [decodeSelector_immediate w h1] at h
    cases h
    exact ⟨rfl, h1⟩
  · by_cases h2 : w.toNat ≤ 32775
    · rw [decodeSelector_register w (by omega) h2] at h
      cases h
    · rw [decodeSelector_invalid w (by omega)] at h
      cases h

/-- The last line of the opcode map. -/
theorem decodeBody_unknown (sel : Nat) (ws : List Word) (h : 22 ≤ sel) : decodeBody sel ws = .error .unknownOpcode := by
  unfold decodeBody
  split <;> first | omega | rfl

/-! ## Operands in sequence (R81) -/

@[simp] theorem takeOperand_nil : takeOperand [] = .error .unmappedAddress := rfl

@[simp] theorem takeOperand_encodeOperand (op : Operand) (ws : List Word) :
    takeOperand (encodeOperand op :: ws) = .ok (op, ws) := by
  simp only [takeOperand, decodeOperand_encodeOperand]

theorem takeOperand_ok (ws : List Word) (op : Operand) (rest : List Word) (h : takeOperand ws = .ok (op, rest)) :
    ws = encodeOperand op :: rest := by
  cases ws with
  | nil => cases h
  | cons w ws =>
    simp only [takeOperand] at h
    split at h
    · cases h
    · next hop =>
      cases h
      rw [encodeOperand_of_decodeOperand w op hop]

/-! ## Formats (R77): what a format decoder answers, said once -/

theorem afterDestination_ok (d : Operand) (later : Except Cause Instr) (i : Instr) :
    afterDestination d later = .ok i ↔ later = .ok i := by
  unfold afterDestination
  split
  · rfl
  · split <;> simp

theorem decodeOne_ok (mk : Operand → Instr) (ws : List Word) (i : Instr) :
    decodeOne mk ws = .ok i ↔ ∃ a rest, ws = encodeOperand a :: rest ∧ i = mk a := by
  constructor
  · intro h
    unfold decodeOne at h
    split at h
    · cases h
    · next a rest ht =>
      cases h
      exact ⟨a, rest, takeOperand_ok _ _ _ ht, rfl⟩
  · rintro ⟨a, rest, rfl, rfl⟩
    simp only [decodeOne, takeOperand_encodeOperand]

theorem decodeTwo_ok (mk : Operand → Operand → Instr) (ws : List Word) (i : Instr) :
    decodeTwo mk ws = .ok i ↔ ∃ a b rest, ws = encodeOperand a :: encodeOperand b :: rest ∧ i = mk a b := by
  constructor
  · intro h
    unfold decodeTwo at h
    split at h
    · cases h
    · next a rest ht =>
      obtain ⟨b, rest', hr, rfl⟩ := (decodeOne_ok _ _ _).1 h
      exact ⟨a, b, rest', by rw [takeOperand_ok _ _ _ ht, hr], rfl⟩
  · rintro ⟨a, b, rest, rfl, rfl⟩
    simp only [decodeTwo, takeOperand_encodeOperand]
    exact (decodeOne_ok _ _ _).2 ⟨b, rest, rfl, rfl⟩

theorem decodeDestOne_ok (mk : Operand → Operand → Instr) (ws : List Word) (i : Instr) :
    decodeDestOne mk ws = .ok i ↔ ∃ d a rest, ws = encodeOperand d :: encodeOperand a :: rest ∧ i = mk d a := by
  constructor
  · intro h
    unfold decodeDestOne at h
    split at h
    · cases h
    · next d rest ht =>
      obtain ⟨a, rest', hr, rfl⟩ := (decodeOne_ok _ _ _).1 ((afterDestination_ok _ _ _).1 h)
      exact ⟨d, a, rest', by rw [takeOperand_ok _ _ _ ht, hr], rfl⟩
  · rintro ⟨d, a, rest, rfl, rfl⟩
    simp only [decodeDestOne, takeOperand_encodeOperand]
    exact (afterDestination_ok _ _ _).2 ((decodeOne_ok _ _ _).2 ⟨a, rest, rfl, rfl⟩)

theorem decodeDestTwo_ok (mk : Operand → Operand → Operand → Instr) (ws : List Word) (i : Instr) :
    decodeDestTwo mk ws = .ok i ↔
      ∃ d a b rest, ws = encodeOperand d :: encodeOperand a :: encodeOperand b :: rest ∧ i = mk d a b := by
  constructor
  · intro h
    unfold decodeDestTwo at h
    split at h
    · cases h
    · next d rest ht =>
      obtain ⟨a, b, rest', hr, rfl⟩ := (decodeTwo_ok _ _ _).1 ((afterDestination_ok _ _ _).1 h)
      exact ⟨d, a, b, rest', by rw [takeOperand_ok _ _ _ ht, hr], rfl⟩
  · rintro ⟨d, a, b, rest, rfl, rfl⟩
    simp only [decodeDestTwo, takeOperand_encodeOperand]
    exact (afterDestination_ok _ _ _).2 ((decodeTwo_ok _ _ _).2 ⟨a, b, rest, rfl, rfl⟩)

/-- What the opcode map answers: the instruction of that selector, its operands' words in front. -/
theorem decodeBody_ok (sel : Nat) (ws : List Word) (i : Instr) (h : decodeBody sel ws = .ok i) :
    sel = i.selector ∧ ∃ rest, ws = i.operands.map encodeOperand ++ rest := by
  unfold decodeBody at h
  split at h
  all_goals first
    | cases h; exact ⟨rfl, _, rfl⟩
    | obtain ⟨_, _, rfl, rfl⟩ := (decodeOne_ok _ _ _).1 h; exact ⟨rfl, _, rfl⟩
    | obtain ⟨_, _, _, rfl, rfl⟩ := (decodeTwo_ok _ _ _).1 h; exact ⟨rfl, _, rfl⟩
    | obtain ⟨_, _, _, rfl, rfl⟩ := (decodeDestOne_ok _ _ _).1 h; exact ⟨rfl, _, rfl⟩
    | obtain ⟨_, _, _, _, rfl, rfl⟩ := (decodeDestTwo_ok _ _ _).1 h; exact ⟨rfl, _, rfl⟩
    | cases h

/-! ## Lengths -/

theorem encode_length (i : Instr) : (encode i).length = i.length := by
  simp [encode, Instr.length, Nat.add_comm]

/-- The words of a word list as bytes and back. -/
@[simp] theorem wordsOfBytes_bytesOfWords (ws : List Word) : wordsOfBytes (bytesOfWords ws) = ws := by
  induction ws with
  | nil => rfl
  | cons w ws ih =>
    have := w.isLt
    simp only [bytesOfWords, wordsOfBytes, ih]
    congr 1
    apply BitVec.eq_of_toNat_eq
    simp only [BitVec.toNat_ofNat]
    omega

end Sys2Proof
end

