-- ==== Sys2Proof/Laws/Memory.lean ====
section
/-! SUPPORT. The laws of memory: a byte reads as last written, every operation keeps the canonical form, and two memories in
canonical form that read alike are the same list. -/

namespace Sys2Proof.Machine

@[simp] theorem Memory.unlisted_eq (a : Nat) : Memory.unlisted a = 0 := rfl

/-- The canonical form, entry by entry. -/
theorem Memory.wfFrom_cons (lo k : Nat) (b : Byte) (m : Memory) : Memory.wfFrom lo ((k, b) :: m) = true ↔
    lo ≤ k ∧ k < Memory.size ∧ b ≠ 0 ∧ Memory.wfFrom (k + 1) m = true := by
  simp only [Memory.wfFrom, Bool.and_eq_true, decide_eq_true_eq, and_assoc]
  exact Iff.rfl

/-- A byte write leaves every other byte alone. -/
theorem Memory.byteAt_setByte_ne (m : Memory) (a : Nat) (b : Byte) (x : Nat) (h : x ≠ a) :
    (m.setByte a b).byteAt x = m.byteAt x := by
  induction m with
  | nil =>
    simp only [Memory.setByte]
    split
    · rfl
    · simp [Memory.byteAt, Ne.symm h]
  | cons e m ih =>
    obtain ⟨k, c⟩ := e
    simp only [Memory.setByte]
    split
    · split
      · rfl
      · simp [Memory.byteAt, Ne.symm h]
    · split
      · next _ hk =>
        subst hk
        split <;> simp [Memory.byteAt, Ne.symm h]
      · simp only [Memory.byteAt, ih]

/-- Below the first address of a canonical list nothing is listed. -/
theorem Memory.byteAt_below (m : Memory) (lo x : Nat) (h : Memory.wfFrom lo m = true) (hx : x < lo) :
    m.byteAt x = 0 := by
  induction m generalizing lo with
  | nil => rfl
  | cons e m ih =>
    obtain ⟨k, c⟩ := e
    rw [Memory.wfFrom_cons] at h
    have hne : k ≠ x := by omega
    simp only [Memory.byteAt, hne, if_false]
    exact ih (k + 1) h.2.2.2 (by omega)

/-- A byte reads as the value written to it, in a canonical list. -/
theorem Memory.byteAt_setByte_self (m : Memory) (lo a : Nat) (b : Byte) (h : Memory.wfFrom lo m = true) :
    (m.setByte a b).byteAt a = b := by
  induction m generalizing lo with
  | nil =>
    simp only [Memory.setByte]
    split
    · next hb => simp [Memory.byteAt, hb]
    · simp [Memory.byteAt]
  | cons e m ih =>
    obtain ⟨k, c⟩ := e
    have hw := h
    rw [Memory.wfFrom_cons] at hw
    simp only [Memory.setByte]
    split
    · next hlt =>
      split
      · next hb =>
        have hne : k ≠ a := by omega
        simp only [Memory.byteAt, hne, if_false, hb, Memory.unlisted_eq]
        exact Memory.byteAt_below m (k + 1) a hw.2.2.2 (by omega)
      · simp [Memory.byteAt]
    · split
      · next _ hk =>
        split
        · next hb =>
          rw [hb, Memory.unlisted_eq]
          exact Memory.byteAt_below m (k + 1) a hw.2.2.2 (by omega)
        · simp [Memory.byteAt]
      · next _ hk =>
        simp only [Memory.byteAt, Ne.symm hk, if_false]
        exact ih (k + 1) hw.2.2.2

/-- A smaller lower bound is a weaker condition. -/
theorem Memory.wfFrom_mono (m : Memory) (lo lo' : Nat) (h : Memory.wfFrom lo m = true) (hl : lo' ≤ lo) :
    Memory.wfFrom lo' m = true := by
  cases m with
  | nil => rfl
  | cons e m =>
    obtain ⟨k, c⟩ := e
    rw [Memory.wfFrom_cons] at h ⊢
    exact ⟨by omega, h.2⟩

/-- A byte write inside memory keeps the canonical form. -/
theorem Memory.wfFrom_setByte (m : Memory) (lo a : Nat) (b : Byte) (h : Memory.wfFrom lo m = true) (hlo : lo ≤ a)
    (ha : a < Memory.size) : Memory.wfFrom lo (m.setByte a b) = true := by
  induction m generalizing lo with
  | nil =>
    simp only [Memory.setByte]
    split
    · rfl
    · next hb =>
      rw [Memory.wfFrom_cons]
      exact ⟨hlo, ha, hb, rfl⟩
  | cons e m ih =>
    obtain ⟨k, c⟩ := e
    have hw := h
    rw [Memory.wfFrom_cons] at hw
    simp only [Memory.setByte]
    split
    · split
      · exact h
      · next hlt hb =>
        rw [Memory.wfFrom_cons, Memory.wfFrom_cons]
        exact ⟨hlo, ha, hb, by omega, hw.2⟩
    · split
      · next _ hk =>
        split
        · exact Memory.wfFrom_mono m (k + 1) lo hw.2.2.2 (by omega)
        · next hb =>
          rw [Memory.wfFrom_cons]
          exact ⟨hlo, ha, hb, by rw [hk]; exact hw.2.2.2⟩
      · rw [Memory.wfFrom_cons]
        exact ⟨hw.1, hw.2.1, hw.2.2.1, ih (k + 1) hw.2.2.2 (by omega)⟩

theorem Memory.wf_setByte (m : Memory) (a : Nat) (b : Byte) (h : m.wf = true) (ha : a < Memory.size) :
    (m.setByte a b).wf = true := Memory.wfFrom_setByte m 0 a b h (Nat.zero_le a) ha

/-! ## Words -/

/-- A word write leaves every byte outside its two bytes alone. -/
theorem Memory.byteAt_setWord_ne (m : Memory) (a : Nat) (w : Word) (x : Nat) (h0 : x ≠ 2 * a) (h1 : x ≠ 2 * a + 1) :
    (m.setWord a w).byteAt x = m.byteAt x := by
  rw [Memory.setWord, Memory.byteAt_setByte_ne _ _ _ _ h1, Memory.byteAt_setByte_ne _ _ _ _ h0]

theorem Memory.wf_setWord (m : Memory) (a : Nat) (w : Word) (h : m.wf = true) (ha : a ≤ 32767) :
    (m.setWord a w).wf = true := by
  have hs : Memory.size = 65536 := rfl
  exact Memory.wf_setByte _ _ _ (Memory.wf_setByte _ _ _ h (by omega)) (by omega)

/-- A word write leaves every other word alone. -/
theorem Memory.wordAt_setWord_ne (m : Memory) (a : Nat) (w : Word) (x : Nat) (h : x ≠ a) :
    (m.setWord a w).wordAt x = m.wordAt x := by
  unfold Memory.wordAt
  rw [Memory.byteAt_setWord_ne _ _ _ _ (by omega) (by omega), Memory.byteAt_setWord_ne _ _ _ _ (by omega) (by omega)]

/-- A word reads as the value written to it, in a canonical list. -/
theorem Memory.wordAt_setWord_self (m : Memory) (a : Nat) (w : Word) (h : m.wf = true) (ha : a ≤ 32767) :
    (m.setWord a w).wordAt a = w := by
  have hs : Memory.size = 65536 := rfl
  have h1 : (m.setByte (2 * a) (BitVec.ofNat 8 w.toNat)).wf = true := Memory.wf_setByte _ _ _ h (by omega)
  have hw : w.toNat < 65536 := w.isLt
  unfold Memory.wordAt Memory.setWord
  rw [Memory.byteAt_setByte_self _ 0 _ _ h1, Memory.byteAt_setByte_ne _ _ _ _ (by omega),
    Memory.byteAt_setByte_self _ 0 _ _ h]
  apply BitVec.eq_of_toNat_eq
  simp only [BitVec.toNat_ofNat]
  omega

/-- What `wmem` does to memory (R51): its word, and no other byte. -/
theorem memWrite_byteAt_ne (m : Memory) (a : Val) (w : Word) (x : Nat) (h0 : x ≠ 2 * a.toNat)
    (h1 : x ≠ 2 * a.toNat + 1) : (memWrite m a w).byteAt x = m.byteAt x :=
  Memory.byteAt_setWord_ne m a.toNat w x h0 h1

theorem memWrite_wordAt_self (m : Memory) (a : Val) (w : Word) (h : m.wf = true) :
    (memWrite m a w).wordAt a.toNat = w := by
  have := a.isLt
  exact Memory.wordAt_setWord_self m a.toNat w h (by omega)

theorem memWrite_wf (m : Memory) (a : Val) (w : Word) (h : m.wf = true) : (memWrite m a w).wf = true := by
  have := a.isLt
  exact Memory.wf_setWord m a.toNat w h (by omega)

/-! ## Images and placed words -/

theorem Memory.ofBytes_cons_zero (lo : Nat) (bs : List Byte) :
    Memory.ofBytes lo (0 :: bs) = Memory.ofBytes (lo + 1) bs := rfl

theorem Memory.ofBytes_cons_of_ne (lo : Nat) (b : Byte) (bs : List Byte) (h : b ≠ 0) :
    Memory.ofBytes lo (b :: bs) = (lo, b) :: Memory.ofBytes (lo + 1) bs := if_neg h

/-- The byte of an image at a byte address, 0 outside it. -/
theorem Memory.byteAt_ofBytes (lo : Nat) (bs : List Byte) (x : Nat) :
    (Memory.ofBytes lo bs).byteAt x = if lo ≤ x then bs.getD (x - lo) 0 else 0 := by
  induction bs generalizing lo with
  | nil => simp [Memory.ofBytes, Memory.byteAt]
  | cons b bs ih =>
    by_cases hx : x = lo
    · subst hx
      by_cases hb : b = 0
      · rw [hb, Memory.ofBytes_cons_zero, ih]
        simp
      · simp [Memory.ofBytes_cons_of_ne x b bs hb, Memory.byteAt]
    · have hne : lo ≠ x := Ne.symm hx
      have hstep : (Memory.ofBytes lo (b :: bs)).byteAt x = (Memory.ofBytes (lo + 1) bs).byteAt x := by
        by_cases hb : b = 0
        · rw [hb, Memory.ofBytes_cons_zero]
        · simp [Memory.ofBytes_cons_of_ne lo b bs hb, Memory.byteAt, hne]
      rw [hstep, ih]
      by_cases hl : lo ≤ x
      · have e : x - lo = (x - (lo + 1)) + 1 := by omega
        have hl' : lo + 1 ≤ x := by omega
        simp [hl, hl', e]
      · have hl' : ¬ lo + 1 ≤ x := by omega
        simp [hl, hl']

/-- An image that fits gives a memory in canonical form. -/
theorem Memory.wfFrom_ofBytes (lo : Nat) (bs : List Byte) (h : lo + bs.length ≤ Memory.size) :
    Memory.wfFrom lo (Memory.ofBytes lo bs) = true := by
  induction bs generalizing lo with
  | nil => rfl
  | cons b bs ih =>
    simp only [List.length_cons] at h
    have ih' := ih (lo + 1) (by omega)
    simp only [Memory.ofBytes]
    split
    · exact Memory.wfFrom_mono _ (lo + 1) lo ih' (by omega)
    · next hb =>
      rw [Memory.wfFrom_cons]
      exact ⟨Nat.le_refl lo, by omega, hb, ih'⟩

theorem Memory.wf_setWords (m : Memory) (a : Nat) (ws : List Word) (h : m.wf = true) : (m.setWords a ws).wf = true := by
  induction ws generalizing m a with
  | nil => exact h
  | cons w ws ih =>
    simp only [Memory.setWords]
    split
    · next ha => exact ih _ _ (Memory.wf_setWord m a w h ha)
    · exact h

/-- Words placed from `a` on leave every word below alone. -/
theorem Memory.wordAt_setWords_below (m : Memory) (a : Nat) (ws : List Word) (x : Nat) (hx : x < a) :
    (m.setWords a ws).wordAt x = m.wordAt x := by
  induction ws generalizing m a with
  | nil => rfl
  | cons w ws ih =>
    simp only [Memory.setWords]
    split
    · rw [ih _ _ (by omega), Memory.wordAt_setWord_ne _ _ _ _ (by omega)]
    · rfl

/-- A placed word reads back, where it fits. -/
theorem Memory.wordAt_setWords (m : Memory) (a : Nat) (ws : List Word) (h : m.wf = true) (k : Nat) (hk : k < ws.length)
    (ha : a + k ≤ 32767) : (m.setWords a ws).wordAt (a + k) = ws[k] := by
  induction ws generalizing m a k with
  | nil => simp at hk
  | cons w ws ih =>
    have h0 : a ≤ 32767 := by omega
    simp only [Memory.setWords, h0, if_true]
    cases k with
    | zero =>
      rw [Memory.wordAt_setWords_below _ _ _ _ (by omega)]
      exact Memory.wordAt_setWord_self m a w h h0
    | succ k =>
      have e : a + (k + 1) = a + 1 + k := by omega
      rw [e]
      exact ih _ _ (Memory.wf_setWord m a w h h0) k (by simpa using hk) (by omega)

/-! ## Equal memories are equal lists -/

/-- Two canonical lists that read alike everywhere are the same list. -/
theorem Memory.eq_of_byteAt (m n : Memory) (lo : Nat) (hm : Memory.wfFrom lo m = true) (hn : Memory.wfFrom lo n = true)
    (h : ∀ x, m.byteAt x = n.byteAt x) : m = n := by
  induction m generalizing n lo with
  | nil =>
    cases n with
    | nil => rfl
    | cons e n =>
      obtain ⟨k, c⟩ := e
      rw [Memory.wfFrom_cons] at hn
      have := h k
      simp only [Memory.byteAt, if_true, Memory.unlisted_eq] at this
      exact absurd this.symm hn.2.2.1
  | cons e m ih =>
    obtain ⟨k, c⟩ := e
    have hm' := hm
    rw [Memory.wfFrom_cons] at hm'
    cases n with
    | nil =>
      have := h k
      simp only [Memory.byteAt, if_true, Memory.unlisted_eq] at this
      exact absurd this hm'.2.2.1
    | cons f n =>
      obtain ⟨j, d⟩ := f
      have hn' := hn
      rw [Memory.wfFrom_cons] at hn'
      have hkj : k = j := by
        rcases Nat.lt_trichotomy k j with hlt | heq | hgt
        · have hx := h k
          have hne : j ≠ k := by omega
          simp only [Memory.byteAt, if_true, hne, if_false] at hx
          rw [Memory.byteAt_below n (j + 1) k hn'.2.2.2 (by omega)] at hx
          exact absurd hx hm'.2.2.1
        · exact heq
        · have hx := h j
          have hne : k ≠ j := by omega
          simp only [Memory.byteAt, if_true, hne, if_false] at hx
          rw [Memory.byteAt_below m (k + 1) j hm'.2.2.2 (by omega)] at hx
          exact absurd hx.symm hn'.2.2.1
      subst hkj
      have hcd : c = d := by simpa [Memory.byteAt] using h k
      subst hcd
      have htail : m = n := by
        refine ih n (k + 1) hm'.2.2.2 hn'.2.2.2 ?_
        intro x
        by_cases hx : k = x
        · subst hx
          rw [Memory.byteAt_below m (k + 1) k hm'.2.2.2 (by omega), Memory.byteAt_below n (k + 1) k hn'.2.2.2 (by omega)]
        · simpa [Memory.byteAt, hx] using h x
      rw [htail]

/-! ## Reads and fetches -/

theorem memRead_in_range (m : Memory) (a : Nat) (h : a ≤ 32767) : memRead m a = .ok (m.wordAt a) := by
  simp [memRead, h]

theorem memRead_past_end (m : Memory) (a : Nat) (h : 32767 < a) : memRead m a = .error .unmappedAddress := by
  have : ¬ a ≤ 32767 := by omega
  simp [memRead, this]

theorem fetchFrom_succ (m : Memory) (n a : Nat) (h : a ≤ 32767) :
    fetchFrom m (n + 1) a = m.wordAt a :: fetchFrom m n (a + 1) := by
  simp [fetchFrom, memRead_in_range m a h]

theorem fetchFrom_past_end (m : Memory) (n a : Nat) (h : 32767 < a) : fetchFrom m n a = [] := by
  cases n with
  | zero => rfl
  | succ n => simp [fetchFrom, memRead_past_end m a h]

/-- The fetch never reads past the last address. -/
theorem fetchFrom_length_le (m : Memory) (n a : Nat) : (fetchFrom m n a).length ≤ 32768 - a := by
  induction n generalizing a with
  | zero => simp [fetchFrom]
  | succ n ih =>
    by_cases h : a ≤ 32767
    · rw [fetchFrom_succ m n a h]
      have := ih (a + 1)
      simp only [List.length_cons]
      omega
    · rw [fetchFrom_past_end m _ a (by omega)]
      simp

end Sys2Proof.Machine
end

