-- ==== Sys2Proof/Laws/State.lean ====
section
/-! SUPPORT. One lemma for each field of State after each update, and the register laws. -/

namespace Sys2Proof.Machine

@[simp] theorem State.setRegs_regs (s : State) (v : Vector Val 8) : (s.setRegs v).regs = v := rfl
@[simp] theorem State.setRegs_pc (s : State) (v : Vector Val 8) : (s.setRegs v).pc = s.pc := rfl
@[simp] theorem State.setRegs_stack (s : State) (v : Vector Val 8) : (s.setRegs v).stack = s.stack := rfl
@[simp] theorem State.setRegs_mem (s : State) (v : Vector Val 8) : (s.setRegs v).mem = s.mem := rfl
@[simp] theorem State.setRegs_status (s : State) (v : Vector Val 8) : (s.setRegs v).status = s.status := rfl
@[simp] theorem State.setRegs_waiting (s : State) (v : Vector Val 8) : (s.setRegs v).waiting = s.waiting := rfl
@[simp] theorem State.setRegs_outTrace (s : State) (v : Vector Val 8) : (s.setRegs v).outTrace = s.outTrace := rfl
@[simp] theorem State.setRegs_inTrace (s : State) (v : Vector Val 8) : (s.setRegs v).inTrace = s.inTrace := rfl
@[simp] theorem State.setRegs_build (s : State) (v : Vector Val 8) : (s.setRegs v).build = s.build := rfl
@[simp] theorem State.setRegs_ports (s : State) (v : Vector Val 8) : (s.setRegs v).ports = s.ports := rfl

@[simp] theorem State.setPc_regs (s : State) (v : Word) : (s.setPc v).regs = s.regs := rfl
@[simp] theorem State.setPc_pc (s : State) (v : Word) : (s.setPc v).pc = v := rfl
@[simp] theorem State.setPc_stack (s : State) (v : Word) : (s.setPc v).stack = s.stack := rfl
@[simp] theorem State.setPc_mem (s : State) (v : Word) : (s.setPc v).mem = s.mem := rfl
@[simp] theorem State.setPc_status (s : State) (v : Word) : (s.setPc v).status = s.status := rfl
@[simp] theorem State.setPc_waiting (s : State) (v : Word) : (s.setPc v).waiting = s.waiting := rfl
@[simp] theorem State.setPc_outTrace (s : State) (v : Word) : (s.setPc v).outTrace = s.outTrace := rfl
@[simp] theorem State.setPc_inTrace (s : State) (v : Word) : (s.setPc v).inTrace = s.inTrace := rfl
@[simp] theorem State.setPc_build (s : State) (v : Word) : (s.setPc v).build = s.build := rfl
@[simp] theorem State.setPc_ports (s : State) (v : Word) : (s.setPc v).ports = s.ports := rfl

@[simp] theorem State.setStack_regs (s : State) (v : List Val) : (s.setStack v).regs = s.regs := rfl
@[simp] theorem State.setStack_pc (s : State) (v : List Val) : (s.setStack v).pc = s.pc := rfl
@[simp] theorem State.setStack_stack (s : State) (v : List Val) : (s.setStack v).stack = v := rfl
@[simp] theorem State.setStack_mem (s : State) (v : List Val) : (s.setStack v).mem = s.mem := rfl
@[simp] theorem State.setStack_status (s : State) (v : List Val) : (s.setStack v).status = s.status := rfl
@[simp] theorem State.setStack_waiting (s : State) (v : List Val) : (s.setStack v).waiting = s.waiting := rfl
@[simp] theorem State.setStack_outTrace (s : State) (v : List Val) : (s.setStack v).outTrace = s.outTrace := rfl
@[simp] theorem State.setStack_inTrace (s : State) (v : List Val) : (s.setStack v).inTrace = s.inTrace := rfl
@[simp] theorem State.setStack_build (s : State) (v : List Val) : (s.setStack v).build = s.build := rfl
@[simp] theorem State.setStack_ports (s : State) (v : List Val) : (s.setStack v).ports = s.ports := rfl

@[simp] theorem State.setMem_regs (s : State) (v : Memory) : (s.setMem v).regs = s.regs := rfl
@[simp] theorem State.setMem_pc (s : State) (v : Memory) : (s.setMem v).pc = s.pc := rfl
@[simp] theorem State.setMem_stack (s : State) (v : Memory) : (s.setMem v).stack = s.stack := rfl
@[simp] theorem State.setMem_mem (s : State) (v : Memory) : (s.setMem v).mem = v := rfl
@[simp] theorem State.setMem_status (s : State) (v : Memory) : (s.setMem v).status = s.status := rfl
@[simp] theorem State.setMem_waiting (s : State) (v : Memory) : (s.setMem v).waiting = s.waiting := rfl
@[simp] theorem State.setMem_outTrace (s : State) (v : Memory) : (s.setMem v).outTrace = s.outTrace := rfl
@[simp] theorem State.setMem_inTrace (s : State) (v : Memory) : (s.setMem v).inTrace = s.inTrace := rfl
@[simp] theorem State.setMem_build (s : State) (v : Memory) : (s.setMem v).build = s.build := rfl
@[simp] theorem State.setMem_ports (s : State) (v : Memory) : (s.setMem v).ports = s.ports := rfl

@[simp] theorem State.setStatus_regs (s : State) (v : RunStatus) : (s.setStatus v).regs = s.regs := rfl
@[simp] theorem State.setStatus_pc (s : State) (v : RunStatus) : (s.setStatus v).pc = s.pc := rfl
@[simp] theorem State.setStatus_stack (s : State) (v : RunStatus) : (s.setStatus v).stack = s.stack := rfl
@[simp] theorem State.setStatus_mem (s : State) (v : RunStatus) : (s.setStatus v).mem = s.mem := rfl
@[simp] theorem State.setStatus_status (s : State) (v : RunStatus) : (s.setStatus v).status = v := rfl
@[simp] theorem State.setStatus_waiting (s : State) (v : RunStatus) : (s.setStatus v).waiting = s.waiting := rfl
@[simp] theorem State.setStatus_outTrace (s : State) (v : RunStatus) : (s.setStatus v).outTrace = s.outTrace := rfl
@[simp] theorem State.setStatus_inTrace (s : State) (v : RunStatus) : (s.setStatus v).inTrace = s.inTrace := rfl
@[simp] theorem State.setStatus_build (s : State) (v : RunStatus) : (s.setStatus v).build = s.build := rfl
@[simp] theorem State.setStatus_ports (s : State) (v : RunStatus) : (s.setStatus v).ports = s.ports := rfl

@[simp] theorem State.setWaiting_regs (s : State) (v : Option PendingRead) : (s.setWaiting v).regs = s.regs := rfl
@[simp] theorem State.setWaiting_pc (s : State) (v : Option PendingRead) : (s.setWaiting v).pc = s.pc := rfl
@[simp] theorem State.setWaiting_stack (s : State) (v : Option PendingRead) : (s.setWaiting v).stack = s.stack := rfl
@[simp] theorem State.setWaiting_mem (s : State) (v : Option PendingRead) : (s.setWaiting v).mem = s.mem := rfl
@[simp] theorem State.setWaiting_status (s : State) (v : Option PendingRead) : (s.setWaiting v).status = s.status := rfl
@[simp] theorem State.setWaiting_waiting (s : State) (v : Option PendingRead) : (s.setWaiting v).waiting = v := rfl
@[simp] theorem State.setWaiting_outTrace (s : State) (v : Option PendingRead) : (s.setWaiting v).outTrace = s.outTrace := rfl
@[simp] theorem State.setWaiting_inTrace (s : State) (v : Option PendingRead) : (s.setWaiting v).inTrace = s.inTrace := rfl
@[simp] theorem State.setWaiting_build (s : State) (v : Option PendingRead) : (s.setWaiting v).build = s.build := rfl
@[simp] theorem State.setWaiting_ports (s : State) (v : Option PendingRead) : (s.setWaiting v).ports = s.ports := rfl

@[simp] theorem State.setOutTrace_regs (s : State) (v : List Val) : (s.setOutTrace v).regs = s.regs := rfl
@[simp] theorem State.setOutTrace_pc (s : State) (v : List Val) : (s.setOutTrace v).pc = s.pc := rfl
@[simp] theorem State.setOutTrace_stack (s : State) (v : List Val) : (s.setOutTrace v).stack = s.stack := rfl
@[simp] theorem State.setOutTrace_mem (s : State) (v : List Val) : (s.setOutTrace v).mem = s.mem := rfl
@[simp] theorem State.setOutTrace_status (s : State) (v : List Val) : (s.setOutTrace v).status = s.status := rfl
@[simp] theorem State.setOutTrace_waiting (s : State) (v : List Val) : (s.setOutTrace v).waiting = s.waiting := rfl
@[simp] theorem State.setOutTrace_outTrace (s : State) (v : List Val) : (s.setOutTrace v).outTrace = v := rfl
@[simp] theorem State.setOutTrace_inTrace (s : State) (v : List Val) : (s.setOutTrace v).inTrace = s.inTrace := rfl
@[simp] theorem State.setOutTrace_build (s : State) (v : List Val) : (s.setOutTrace v).build = s.build := rfl
@[simp] theorem State.setOutTrace_ports (s : State) (v : List Val) : (s.setOutTrace v).ports = s.ports := rfl

@[simp] theorem State.setInTrace_regs (s : State) (v : List InputAnswer) : (s.setInTrace v).regs = s.regs := rfl
@[simp] theorem State.setInTrace_pc (s : State) (v : List InputAnswer) : (s.setInTrace v).pc = s.pc := rfl
@[simp] theorem State.setInTrace_stack (s : State) (v : List InputAnswer) : (s.setInTrace v).stack = s.stack := rfl
@[simp] theorem State.setInTrace_mem (s : State) (v : List InputAnswer) : (s.setInTrace v).mem = s.mem := rfl
@[simp] theorem State.setInTrace_status (s : State) (v : List InputAnswer) : (s.setInTrace v).status = s.status := rfl
@[simp] theorem State.setInTrace_waiting (s : State) (v : List InputAnswer) : (s.setInTrace v).waiting = s.waiting := rfl
@[simp] theorem State.setInTrace_outTrace (s : State) (v : List InputAnswer) : (s.setInTrace v).outTrace = s.outTrace := rfl
@[simp] theorem State.setInTrace_inTrace (s : State) (v : List InputAnswer) : (s.setInTrace v).inTrace = v := rfl
@[simp] theorem State.setInTrace_build (s : State) (v : List InputAnswer) : (s.setInTrace v).build = s.build := rfl
@[simp] theorem State.setInTrace_ports (s : State) (v : List InputAnswer) : (s.setInTrace v).ports = s.ports := rfl

@[simp] theorem State.setPorts_regs (s : State) (v : Ports) : (s.setPorts v).regs = s.regs := rfl
@[simp] theorem State.setPorts_pc (s : State) (v : Ports) : (s.setPorts v).pc = s.pc := rfl
@[simp] theorem State.setPorts_stack (s : State) (v : Ports) : (s.setPorts v).stack = s.stack := rfl
@[simp] theorem State.setPorts_mem (s : State) (v : Ports) : (s.setPorts v).mem = s.mem := rfl
@[simp] theorem State.setPorts_status (s : State) (v : Ports) : (s.setPorts v).status = s.status := rfl
@[simp] theorem State.setPorts_waiting (s : State) (v : Ports) : (s.setPorts v).waiting = s.waiting := rfl
@[simp] theorem State.setPorts_outTrace (s : State) (v : Ports) : (s.setPorts v).outTrace = s.outTrace := rfl
@[simp] theorem State.setPorts_inTrace (s : State) (v : Ports) : (s.setPorts v).inTrace = s.inTrace := rfl
@[simp] theorem State.setPorts_build (s : State) (v : Ports) : (s.setPorts v).build = s.build := rfl
@[simp] theorem State.setPorts_ports (s : State) (v : Ports) : (s.setPorts v).ports = v := rfl

@[simp] theorem State.advance_regs (s : State) (n : Nat) : (s.advance n).regs = s.regs := rfl
@[simp] theorem State.jump_regs (s : State) (v : Val) : (s.jump v).regs = s.regs := rfl
@[simp] theorem State.halt_regs (s : State) : s.halt.regs = s.regs := rfl
@[simp] theorem takeFault_regs (c : Cause) (a : Word) (s : State) : (takeFault c a s).regs = s.regs := rfl
@[simp] theorem State.setReg_pc (s : State) (r : RegIdx) (v : Val) : (s.setReg r v).pc = s.pc := rfl
@[simp] theorem State.halt_pc (s : State) : s.halt.pc = s.pc := rfl
@[simp] theorem State.advance_stack (s : State) (n : Nat) : (s.advance n).stack = s.stack := rfl
@[simp] theorem State.jump_stack (s : State) (v : Val) : (s.jump v).stack = s.stack := rfl
@[simp] theorem State.setReg_stack (s : State) (r : RegIdx) (v : Val) : (s.setReg r v).stack = s.stack := rfl
@[simp] theorem State.halt_stack (s : State) : s.halt.stack = s.stack := rfl
@[simp] theorem takeFault_stack (c : Cause) (a : Word) (s : State) : (takeFault c a s).stack = s.stack := rfl
@[simp] theorem State.advance_mem (s : State) (n : Nat) : (s.advance n).mem = s.mem := rfl
@[simp] theorem State.jump_mem (s : State) (v : Val) : (s.jump v).mem = s.mem := rfl
@[simp] theorem State.setReg_mem (s : State) (r : RegIdx) (v : Val) : (s.setReg r v).mem = s.mem := rfl
@[simp] theorem State.halt_mem (s : State) : s.halt.mem = s.mem := rfl
@[simp] theorem takeFault_mem (c : Cause) (a : Word) (s : State) : (takeFault c a s).mem = s.mem := rfl
@[simp] theorem State.advance_status (s : State) (n : Nat) : (s.advance n).status = s.status := rfl
@[simp] theorem State.jump_status (s : State) (v : Val) : (s.jump v).status = s.status := rfl
@[simp] theorem State.setReg_status (s : State) (r : RegIdx) (v : Val) : (s.setReg r v).status = s.status := rfl
@[simp] theorem State.advance_waiting (s : State) (n : Nat) : (s.advance n).waiting = s.waiting := rfl
@[simp] theorem State.jump_waiting (s : State) (v : Val) : (s.jump v).waiting = s.waiting := rfl
@[simp] theorem State.setReg_waiting (s : State) (r : RegIdx) (v : Val) : (s.setReg r v).waiting = s.waiting := rfl
@[simp] theorem State.halt_waiting (s : State) : s.halt.waiting = s.waiting := rfl
@[simp] theorem State.advance_outTrace (s : State) (n : Nat) : (s.advance n).outTrace = s.outTrace := rfl
@[simp] theorem State.jump_outTrace (s : State) (v : Val) : (s.jump v).outTrace = s.outTrace := rfl
@[simp] theorem State.setReg_outTrace (s : State) (r : RegIdx) (v : Val) : (s.setReg r v).outTrace = s.outTrace := rfl
@[simp] theorem State.halt_outTrace (s : State) : s.halt.outTrace = s.outTrace := rfl
@[simp] theorem takeFault_outTrace (c : Cause) (a : Word) (s : State) : (takeFault c a s).outTrace = s.outTrace := rfl
@[simp] theorem State.advance_inTrace (s : State) (n : Nat) : (s.advance n).inTrace = s.inTrace := rfl
@[simp] theorem State.jump_inTrace (s : State) (v : Val) : (s.jump v).inTrace = s.inTrace := rfl
@[simp] theorem State.setReg_inTrace (s : State) (r : RegIdx) (v : Val) : (s.setReg r v).inTrace = s.inTrace := rfl
@[simp] theorem State.halt_inTrace (s : State) : s.halt.inTrace = s.inTrace := rfl
@[simp] theorem takeFault_inTrace (c : Cause) (a : Word) (s : State) : (takeFault c a s).inTrace = s.inTrace := rfl
@[simp] theorem State.advance_build (s : State) (n : Nat) : (s.advance n).build = s.build := rfl
@[simp] theorem State.jump_build (s : State) (v : Val) : (s.jump v).build = s.build := rfl
@[simp] theorem State.setReg_build (s : State) (r : RegIdx) (v : Val) : (s.setReg r v).build = s.build := rfl
@[simp] theorem State.halt_build (s : State) : s.halt.build = s.build := rfl
@[simp] theorem takeFault_build (c : Cause) (a : Word) (s : State) : (takeFault c a s).build = s.build := rfl
@[simp] theorem State.advance_ports (s : State) (n : Nat) : (s.advance n).ports = s.ports := rfl
@[simp] theorem State.jump_ports (s : State) (v : Val) : (s.jump v).ports = s.ports := rfl
@[simp] theorem State.setReg_ports (s : State) (r : RegIdx) (v : Val) : (s.setReg r v).ports = s.ports := rfl
@[simp] theorem State.halt_ports (s : State) : s.halt.ports = s.ports := rfl
@[simp] theorem takeFault_ports (c : Cause) (a : Word) (s : State) : (takeFault c a s).ports = s.ports := rfl

@[simp] theorem State.advance_pc (s : State) (n : Nat) : (s.advance n).pc = s.pc + BitVec.ofNat 16 n := rfl
@[simp] theorem State.jump_pc (s : State) (v : Val) : (s.jump v).pc = BitVec.ofNat 16 v.toNat := rfl
@[simp] theorem State.halt_status (s : State) : s.halt.status = .halted := rfl
@[simp] theorem takeFault_status (c : Cause) (a : Word) (s : State) : (takeFault c a s).status = .faulted c a := rfl
@[simp] theorem takeFault_pc (c : Cause) (a : Word) (s : State) : (takeFault c a s).pc = a := rfl
@[simp] theorem takeFault_waiting (c : Cause) (a : Word) (s : State) : (takeFault c a s).waiting = none := rfl

@[simp] theorem State.reg_setPc (s : State) (v : Word) (r : RegIdx) : (s.setPc v).reg r = s.reg r := rfl
@[simp] theorem State.reg_setStack (s : State) (v : List Val) (r : RegIdx) : (s.setStack v).reg r = s.reg r := rfl
@[simp] theorem State.reg_setMem (s : State) (v : Memory) (r : RegIdx) : (s.setMem v).reg r = s.reg r := rfl
@[simp] theorem State.reg_setStatus (s : State) (v : RunStatus) (r : RegIdx) : (s.setStatus v).reg r = s.reg r := rfl
@[simp] theorem State.reg_setWaiting (s : State) (v : Option PendingRead) (r : RegIdx) : (s.setWaiting v).reg r = s.reg r := rfl
@[simp] theorem State.reg_setOutTrace (s : State) (v : List Val) (r : RegIdx) : (s.setOutTrace v).reg r = s.reg r := rfl
@[simp] theorem State.reg_setInTrace (s : State) (v : List InputAnswer) (r : RegIdx) : (s.setInTrace v).reg r = s.reg r := rfl
@[simp] theorem State.reg_setPorts (s : State) (v : Ports) (r : RegIdx) : (s.setPorts v).reg r = s.reg r := rfl
@[simp] theorem State.reg_advance (s : State) (n : Nat) (r : RegIdx) : (s.advance n).reg r = s.reg r := rfl
@[simp] theorem State.reg_jump (s : State) (v : Val) (r : RegIdx) : (s.jump v).reg r = s.reg r := rfl
@[simp] theorem State.reg_halt (s : State) (r : RegIdx) : s.halt.reg r = s.reg r := rfl
@[simp] theorem State.reg_takeFault (c : Cause) (a : Word) (s : State) (r : RegIdx) : (takeFault c a s).reg r = s.reg r := rfl

/-- A register reads as the value written to it (R24). -/
@[simp] theorem State.reg_setReg_self (s : State) (r : RegIdx) (v : Val) : (s.setReg r v).reg r = v := by
  simp [State.reg, State.setReg]

/-- A register write leaves every other register alone: none aliases another (R23). -/
theorem State.reg_setReg_ne (s : State) (r q : RegIdx) (v : Val) (h : q ≠ r) : (s.setReg r v).reg q = s.reg q := by
  have h' : r.val ≠ q.val := fun e => h (Fin.ext e.symm)
  simp [State.reg, State.setReg, h']

end Sys2Proof.Machine
end

