-- ==== Sys2Proof/Laws/Ops.lean ====
section
/-! SUPPORT. One lemma for each shared operation: everything it can do. -/

namespace Sys2Proof.Machine

/-! ## Values -/

theorem mkVal_value (n : Word) (h : n.toNat ≤ 32767) : mkVal n = .ok (BitVec.ofNat 15 n.toNat) := if_pos h

theorem mkVal_invalid (n : Word) (h : 32767 < n.toNat) : mkVal n = .error .invalidValue :=
  if_neg (by omega)

/-- A value made from a number is that number. -/
theorem mkVal_ok (n : Word) (v : Val) (h : mkVal n = .ok v) : v.toNat = n.toNat ∧ n.toNat ≤ 32767 := by
  by_cases hn : n.toNat ≤ 32767
  · rw [mkVal_value n hn] at h
    cases h
    refine ⟨?_, hn⟩
    simp only [BitVec.toNat_ofNat]
    omega
  · rw [mkVal_invalid n (by omega)] at h
    cases h

theorem mkVal_error (n : Word) (c : Cause) (h : mkVal n = .error c) : c = .invalidValue ∧ 32767 < n.toNat := by
  by_cases hn : n.toNat ≤ 32767
  · rw [mkVal_value n hn] at h
    cases h
  · rw [mkVal_invalid n (by omega)] at h
    cases h
    exact ⟨rfl, by omega⟩

/-- The word of a value has its number. -/
theorem wordOfVal_toNat (v : Val) : (BitVec.ofNat 16 v.toNat : Word).toNat = v.toNat := by
  have := v.isLt
  simp only [BitVec.toNat_ofNat]
  omega

@[simp] theorem resolve_imm (s : State) (v : Val) : resolve s (.imm v) = v := rfl

@[simp] theorem resolve_reg (s : State) (r : RegIdx) : resolve s (.reg r) = s.reg r := rfl

/-! ## The stack -/

theorem stackFull_iff (s : State) : s.stackFull = true ↔ s.build.stackCapacity = some s.stack.length := by
  unfold State.stackFull
  split
  · next h => simp [h]
  · next k h =>
    rw [h]
    simp only [decide_eq_true_eq, Option.some.injEq]
    exact eq_comm

theorem push_room (v : Val) (s : State) (h : s.build.stackCapacity ≠ some s.stack.length) :
    push v s = .ok (s.setStack (s.stack ++ [v])) := by
  have hf : ¬ s.stackFull = true := fun hf => h ((stackFull_iff s).1 hf)
  simp [push, hf]

theorem push_full (v : Val) (s : State) (h : s.build.stackCapacity = some s.stack.length) :
    push v s = .error .stackOverflow := by
  simp [push, (stackFull_iff s).2 h]

theorem pop?_empty (s : State) (h : s.stack = []) : pop? s = none := by
  simp [pop?, h]

theorem pop?_append (s : State) (below : List Val) (v : Val) (h : s.stack = below ++ [v]) :
    pop? s = some (v, s.setStack below) := by
  simp [pop?, h]

/-- A pop takes the last entry. -/
theorem pop?_cases (s : State) :
    (s.stack = [] ∧ pop? s = none) ∨ ∃ below v, s.stack = below ++ [v] ∧ pop? s = some (v, s.setStack below) := by
  rcases List.eq_nil_or_concat' s.stack with h | ⟨below, v, h⟩
  · exact .inl ⟨h, pop?_empty s h⟩
  · exact .inr ⟨below, v, h, pop?_append s below v h⟩

/-! ## Ends of an instruction -/

@[simp] theorem settle_ok (s t : State) : settle s (.ok t) = t := rfl

@[simp] theorem settle_error (s : State) (c : Cause) : settle s (.error c) = takeFault c s.pc s := rfl

@[simp] theorem requireRegister_reg (r : RegIdx) : requireRegister (.reg r) = .ok r := rfl

@[simp] theorem requireRegister_imm (v : Val) : requireRegister (.imm v) = .error .typeError := rfl

@[simp] theorem writeDest_reg (r : RegIdx) (v : Val) (n : Nat) (s : State) :
    writeDest (.reg r) v n s = .ok ((s.setReg r v).advance n) := rfl

@[simp] theorem writeDest_imm (x v : Val) (n : Nat) (s : State) : writeDest (.imm x) v n s = .error .typeError := rfl

@[simp] theorem writeDestChecked_imm (x : Val) (value : Except Cause Val) (n : Nat) (s : State) :
    writeDestChecked (.imm x) value n s = .error .typeError := rfl

@[simp] theorem writeDestChecked_ok (r : RegIdx) (v : Val) (n : Nat) (s : State) :
    writeDestChecked (.reg r) (.ok v) n s = .ok ((s.setReg r v).advance n) := rfl

@[simp] theorem writeDestChecked_error (r : RegIdx) (c : Cause) (n : Nat) (s : State) :
    writeDestChecked (.reg r) (.error c) n s = .error c := rfl

/-- What an instruction that writes a destination can end in. -/
theorem settle_writeDest_cases (s : State) (d : Operand) (v : Val) (n : Nat) :
    (∃ r, d = .reg r ∧ settle s (writeDest d v n s) = (s.setReg r v).advance n) ∨
    (∃ x, d = .imm x ∧ settle s (writeDest d v n s) = takeFault .typeError s.pc s) := by
  cases d with
  | imm x => exact .inr ⟨x, rfl, rfl⟩
  | reg r => exact .inl ⟨r, rfl, rfl⟩

/-- The same where the value has a check of its own. -/
theorem settle_writeDestChecked_cases (s : State) (d : Operand) (value : Except Cause Val) (n : Nat) :
    (∃ r v, d = .reg r ∧ value = .ok v ∧ settle s (writeDestChecked d value n s) = (s.setReg r v).advance n) ∨
    (∃ x, d = .imm x ∧ settle s (writeDestChecked d value n s) = takeFault .typeError s.pc s) ∨
    (∃ r c, d = .reg r ∧ value = .error c ∧ settle s (writeDestChecked d value n s) = takeFault c s.pc s) := by
  cases d with
  | imm x => exact .inr (.inl ⟨x, rfl, rfl⟩)
  | reg r =>
    cases value with
    | ok v => exact .inl ⟨r, v, rfl, rfl, rfl⟩
    | error c => exact .inr (.inr ⟨r, c, rfl, rfl, rfl⟩)

/-- What `push` can end in. -/
theorem settle_pushEffect_cases (s : State) (v : Val) :
    (s.build.stackCapacity ≠ some s.stack.length ∧
      settle s (pushEffect v s) = (s.setStack (s.stack ++ [v])).advance 2) ∨
    (s.build.stackCapacity = some s.stack.length ∧
      settle s (pushEffect v s) = takeFault .stackOverflow s.pc s) := by
  by_cases h : s.build.stackCapacity = some s.stack.length
  · exact .inr ⟨h, by simp [pushEffect, push_full v s h]⟩
  · exact .inl ⟨h, by simp [pushEffect, push_room v s h]⟩

/-- What `pop` can end in. -/
theorem settle_popEffect_cases (s : State) (d : Operand) :
    (∃ r below v, d = .reg r ∧ s.stack = below ++ [v] ∧
      settle s (popEffect d s) = ((s.setStack below).setReg r v).advance 2) ∨
    (∃ x, d = .imm x ∧ settle s (popEffect d s) = takeFault .typeError s.pc s) ∨
    (∃ r, d = .reg r ∧ s.stack = [] ∧ settle s (popEffect d s) = takeFault .stackUnderflow s.pc s) := by
  cases d with
  | imm x => exact .inr (.inl ⟨x, rfl, rfl⟩)
  | reg r =>
    rcases pop?_cases s with ⟨h, hp⟩ | ⟨below, v, h, hp⟩
    · exact .inr (.inr ⟨r, rfl, h, by simp [popEffect, hp]⟩)
    · exact .inl ⟨r, below, v, rfl, h, by simp [popEffect, hp]⟩

/-- What `call` can end in, its checks in their order (R204). -/
theorem settle_callEffect_cases (s : State) (target : Val) :
    (∃ r : Val, r.toNat = (s.pc + 2).toNat ∧ s.build.stackCapacity ≠ some s.stack.length ∧
      settle s (callEffect target s) = (s.setStack (s.stack ++ [r])).jump target) ∨
    (32767 < (s.pc + 2).toNat ∧ settle s (callEffect target s) = takeFault .invalidValue s.pc s) ∨
    ((s.pc + 2).toNat ≤ 32767 ∧ s.build.stackCapacity = some s.stack.length ∧
      settle s (callEffect target s) = takeFault .stackOverflow s.pc s) := by
  cases hm : mkVal (s.pc + 2) with
  | error c =>
    obtain ⟨rfl, hlt⟩ := mkVal_error _ _ hm
    exact .inr (.inl ⟨hlt, by simp only [callEffect, hm, settle_error]⟩)
  | ok r =>
    obtain ⟨hr, hle⟩ := mkVal_ok _ _ hm
    by_cases h : s.build.stackCapacity = some s.stack.length
    · exact .inr (.inr ⟨hle, h, by simp only [callEffect, hm, push_full r s h, settle_error]⟩)
    · exact .inl ⟨r, hr, h, by simp only [callEffect, hm, push_room r s h, settle_ok]⟩

/-- The value `rmem` reads: the word of the same number, or `InvalidValue`. The address is always in range (R57). -/
theorem readValue_eq (m : Memory) (a : Val) : readValue m a = mkVal (m.wordAt a.toNat) := by
  have := a.isLt
  simp [readValue, memRead_in_range m a.toNat (by omega)]

/-! ## The ports -/

/-- Every 15-bit value is below 0xD800 (R184). -/
theorem scalarOK_true (v : Val) : scalarOK v = true := by
  have := v.isLt
  have h : v.toNat ≤ 0xD7FF := by omega
  simp [scalarOK, h]

theorem emitValue_accepted (v : Val) (s : State) (h : outputAnswer s.ports = .accepted) :
    emitValue v s = ((s.setPorts (afterEmit s.ports)).setOutTrace (s.outTrace ++ [v])).advance 2 := by
  simp [emitValue, scalarOK_true, h]

theorem emitValue_failed (v : Val) (s : State) (h : outputAnswer s.ports = .failed) :
    emitValue v s = takeFault .ioFailure s.pc (s.setPorts (afterEmit s.ports)) := by
  simp [emitValue, scalarOK_true, h]

theorem askInput_byte (p : PendingRead) (s : State) (b : Byte) (h : inputEvent s = some (.byte b)) :
    askInput p s = ((((s.setPorts (afterRead s.ports)).setInTrace (s.inTrace ++ [.byte b])).setWaiting none).setReg
      p.dest (zextByte b)).setPc (p.start + 2) := by
  simp only [askInput, h]

theorem askInput_closed (p : PendingRead) (s : State) (h : inputEvent s = some .closed) :
    askInput p s =
      takeFault .ioFailure p.start ((s.setPorts (afterRead s.ports)).setInTrace (s.inTrace ++ [.closed])) := by
  simp only [askInput, h]

theorem askInput_none (p : PendingRead) (s : State) (h : inputEvent s = none) :
    askInput p s = ((s.setPorts (afterRead s.ports)).setWaiting (some p)).setPc (p.start + 2) := by
  simp only [askInput, h]

/-- What asking the input port can end in. -/
theorem askInput_cases (p : PendingRead) (s : State) :
    (∃ b, inputEvent s = some (.byte b) ∧ askInput p s =
      ((((s.setPorts (afterRead s.ports)).setInTrace (s.inTrace ++ [.byte b])).setWaiting none).setReg p.dest
        (zextByte b)).setPc (p.start + 2)) ∨
    (inputEvent s = some .closed ∧ askInput p s =
      takeFault .ioFailure p.start ((s.setPorts (afterRead s.ports)).setInTrace (s.inTrace ++ [.closed]))) ∨
    (inputEvent s = none ∧ askInput p s =
      ((s.setPorts (afterRead s.ports)).setWaiting (some p)).setPc (p.start + 2)) := by
  rcases h : inputEvent s with _ | b | _
  · exact .inr (.inr ⟨rfl, askInput_none p s h⟩)
  · exact .inl ⟨_, rfl, askInput_byte p s _ h⟩
  · exact .inr (.inl ⟨rfl, askInput_closed p s h⟩)

theorem zextByte_toNat (b : Byte) : (zextByte b).toNat = b.toNat := by
  have := b.isLt
  simp only [zextByte, BitVec.toNat_ofNat]
  omega

/-! ## Comparisons -/

theorem isNonzero_iff (v : Val) : isNonzero v = true ↔ v.toNat ≠ 0 := by
  simp only [isNonzero, decide_eq_true_eq]

end Sys2Proof.Machine
end

