-- ==== Sys2Proof/Laws/Exec.lean ====
section
/-! SUPPORT. Each instruction's ends as equations of `exec`, one lemma for each end. -/

namespace Sys2Proof.Machine

variable (s : State) (r : RegIdx) (d a b : Operand)

theorem exec_halt : exec .halt s = .next (s.advance 1).halt := rfl
theorem exec_noop : exec .noop s = .next (s.advance 1) := rfl

theorem exec_set : exec (.set (.reg r) a) s = .next ((s.setReg r (resolve s a)).advance 3) := rfl

theorem exec_push_room (h : s.build.stackCapacity ≠ some s.stack.length) :
    exec (.push a) s = .next ((s.setStack (s.stack ++ [resolve s a])).advance 2) := by
  simp only [exec, execPush, pushEffect, push_room _ s h, settle_ok]

theorem exec_push_full (h : s.build.stackCapacity = some s.stack.length) :
    exec (.push a) s = .next (takeFault .stackOverflow s.pc s) := by
  simp only [exec, execPush, pushEffect, push_full _ s h, settle_error]

theorem exec_pop (below : List Val) (v : Val) (h : s.stack = below ++ [v]) :
    exec (.pop (.reg r)) s = .next (((s.setStack below).setReg r v).advance 2) := by
  simp only [exec, execPop, popEffect, requireRegister_reg, pop?_append s below v h, writeDest_reg, settle_ok]

theorem exec_pop_empty (h : s.stack = []) :
    exec (.pop (.reg r)) s = .next (takeFault .stackUnderflow s.pc s) := by
  simp only [exec, execPop, popEffect, requireRegister_reg, pop?_empty s h, settle_error]

theorem exec_eq : exec (.eq (.reg r) a b) s = .next ((s.setReg r (eqValue (resolve s a) (resolve s b))).advance 4) := rfl
theorem exec_gt : exec (.gt (.reg r) a b) s = .next ((s.setReg r (gtValue (resolve s a) (resolve s b))).advance 4) := rfl

theorem exec_jmp : exec (.jmp a) s = .next (s.jump (resolve s a)) := rfl

theorem exec_jt_taken (h : (resolve s a).toNat ≠ 0) : exec (.jt a b) s = .next (s.jump (resolve s b)) := by
  simp only [exec, execJt, (isNonzero_iff _).2 h, if_true]

theorem exec_jt_not_taken (h : (resolve s a).toNat = 0) : exec (.jt a b) s = .next (s.advance 3) := by
  have hf : ¬ isNonzero (resolve s a) = true := fun ht => (isNonzero_iff _).1 ht h
  simp only [exec, execJt, if_neg hf]

theorem exec_jf_taken (h : (resolve s a).toNat = 0) : exec (.jf a b) s = .next (s.jump (resolve s b)) := by
  have hf : ¬ isNonzero (resolve s a) = true := fun ht => (isNonzero_iff _).1 ht h
  simp only [exec, execJf, if_neg hf]

theorem exec_jf_not_taken (h : (resolve s a).toNat ≠ 0) : exec (.jf a b) s = .next (s.advance 3) := by
  simp only [exec, execJf, (isNonzero_iff _).2 h, if_true]

theorem exec_add : exec (.add (.reg r) a b) s = .next ((s.setReg r (ringAdd (resolve s a) (resolve s b))).advance 4) := rfl
theorem exec_mult : exec (.mult (.reg r) a b) s = .next ((s.setReg r (ringMult (resolve s a) (resolve s b))).advance 4) := rfl

theorem exec_mod (h : (resolve s b).toNat ≠ 0) : exec (.mod (.reg r) a b) s =
    .next ((s.setReg r (BitVec.ofNat 15 ((resolve s a).toNat % (resolve s b).toNat))).advance 4) := by
  simp only [exec, execMod, ringMod, if_neg h, writeDestChecked_ok, settle_ok]

theorem exec_mod_zero (h : (resolve s b).toNat = 0) :
    exec (.mod (.reg r) a b) s = .next (takeFault .divisionByZero s.pc s) := by
  simp only [exec, execMod, ringMod, if_pos h, writeDestChecked_error, settle_error]

theorem exec_and : exec (.and (.reg r) a b) s = .next ((s.setReg r (ringAnd (resolve s a) (resolve s b))).advance 4) := rfl
theorem exec_or : exec (.or (.reg r) a b) s = .next ((s.setReg r (ringOr (resolve s a) (resolve s b))).advance 4) := rfl
theorem exec_not : exec (.not (.reg r) a) s = .next ((s.setReg r (ringNot (resolve s a))).advance 3) := rfl

theorem exec_rmem (h : (s.mem.wordAt (resolve s a).toNat).toNat ≤ 32767) : exec (.rmem (.reg r) a) s =
    .next ((s.setReg r (BitVec.ofNat 15 (s.mem.wordAt (resolve s a).toNat).toNat)).advance 3) := by
  simp only [exec, execRmem, readValue_eq, mkVal_value _ h, writeDestChecked_ok, settle_ok]

theorem exec_rmem_invalid (h : 32767 < (s.mem.wordAt (resolve s a).toNat).toNat) :
    exec (.rmem (.reg r) a) s = .next (takeFault .invalidValue s.pc s) := by
  simp only [exec, execRmem, readValue_eq, mkVal_invalid _ h, writeDestChecked_error, settle_error]

theorem exec_wmem : exec (.wmem a b) s =
    .next ((s.setMem (memWrite s.mem (resolve s a) (BitVec.ofNat 16 (resolve s b).toNat))).advance 3) := rfl

theorem exec_call (v : Val) (hv : mkVal (s.pc + 2) = .ok v) (h : s.build.stackCapacity ≠ some s.stack.length) :
    exec (.call a) s = .next ((s.setStack (s.stack ++ [v])).jump (resolve s a)) := by
  simp only [exec, execCall, callEffect, hv, push_room v s h, settle_ok]

theorem exec_call_invalid (h : 32767 < (s.pc + 2).toNat) :
    exec (.call a) s = .next (takeFault .invalidValue s.pc s) := by
  simp only [exec, execCall, callEffect, mkVal_invalid _ h, settle_error]

theorem exec_call_full (h : (s.pc + 2).toNat ≤ 32767) (h' : s.build.stackCapacity = some s.stack.length) :
    exec (.call a) s = .next (takeFault .stackOverflow s.pc s) := by
  simp only [exec, execCall, callEffect, mkVal_value _ h, push_full _ s h', settle_error]

theorem exec_ret (below : List Val) (v : Val) (h : s.stack = below ++ [v]) :
    exec .ret s = .next ((s.setStack below).jump v) := by
  simp only [exec, execRet, pop?_append s below v h]

theorem exec_ret_empty (h : s.stack = []) : exec .ret s = .next (s.advance 1).halt := by
  simp only [exec, execRet, pop?_empty s h]

theorem exec_out_accepted (h : outputAnswer s.ports = .accepted) : exec (.out a) s =
    .next (((s.setPorts (afterEmit s.ports)).setOutTrace (s.outTrace ++ [resolve s a])).advance 2) := by
  simp only [exec, execOut, emitValue_accepted _ s h]

theorem exec_out_failed (h : outputAnswer s.ports = .failed) : exec (.out a) s =
    .next (takeFault .ioFailure s.pc (s.setPorts (afterEmit s.ports))) := by
  simp only [exec, execOut, emitValue_failed _ s h]

theorem exec_inp : exec (.inp (.reg r)) s = .next (askInput { dest := r, start := s.pc } s) := rfl

end Sys2Proof.Machine
end

