-- ==== Sys2Proof/Laws/Ends.lean ====
section
/-! SUPPORT. Everything an instruction can end in, as one case list, and that every instruction ends in one of them. Invariants and
whole-machine rules are case analyses of it. -/

namespace Sys2Proof.Machine

/-- Why instruction `i` raises cause `c` in state `s` when it executes (R200). -/
inductive Raises (i : Instr) (s : State) : Cause → Prop where
  | immediateDestination : i.wf = false → Raises i s .typeError
  | emptyStack (d : Operand) : i = .pop d → s.stack = [] → Raises i s .stackUnderflow
  | zeroDivisor (d a b : Operand) : i = .mod d a b → (resolve s b).toNat = 0 → Raises i s .divisionByZero
  | wordTooLarge (d a : Operand) : i = .rmem d a → 32767 < (s.mem.wordAt (resolve s a).toNat).toNat →
      Raises i s .invalidValue
  | returnAddress (a : Operand) : i = .call a → 32767 < (s.pc + 2).toNat → Raises i s .invalidValue
  | fullStackPush (a : Operand) : i = .push a → s.build.stackCapacity = some s.stack.length → Raises i s .stackOverflow
  | fullStackCall (a : Operand) : i = .call a → s.build.stackCapacity = some s.stack.length → Raises i s .stackOverflow

/-- The state `t` that instruction `i` ends in from `s`. -/
inductive Ends (i : Instr) (s : State) : State → Prop where
  /-- A value is written to the destination. -/
  | written (r : RegIdx) (v : Val) : i.dest? = some (.reg r) → Ends i s ((s.setReg r v).advance i.length)
  | popped (r : RegIdx) (below : List Val) (v : Val) : i = .pop (.reg r) → s.stack = below ++ [v] →
      Ends i s (((s.setStack below).setReg r v).advance 2)
  | pushed (a : Operand) : i = .push a → s.build.stackCapacity ≠ some s.stack.length →
      Ends i s ((s.setStack (s.stack ++ [resolve s a])).advance 2)
  | called (a : Operand) (v : Val) : i = .call a → v.toNat = (s.pc + 2).toNat →
      s.build.stackCapacity ≠ some s.stack.length →
      Ends i s ((s.setStack (s.stack ++ [v])).jump (resolve s a))
  | returned (below : List Val) (v : Val) : i = .ret → s.stack = below ++ [v] → Ends i s ((s.setStack below).jump v)
  | jumped (target : Val) : (∃ a, i = .jmp a) ∨ (∃ a b, i = .jt a b) ∨ (∃ a b, i = .jf a b) → Ends i s (s.jump target)
  /-- Only the pointer moves on: `noop`, and a jump not taken. -/
  | passed : i = .noop ∨ (∃ a b, i = .jt a b) ∨ (∃ a b, i = .jf a b) → Ends i s (s.advance i.length)
  | stored (a b : Operand) : i = .wmem a b →
      Ends i s ((s.setMem (memWrite s.mem (resolve s a) (BitVec.ofNat 16 (resolve s b).toNat))).advance 3)
  | halted : i = .halt ∨ (i = .ret ∧ s.stack = []) → Ends i s (s.advance 1).halt
  | emitted (a : Operand) : i = .out a → outputAnswer s.ports = .accepted →
      Ends i s (((s.setPorts (afterEmit s.ports)).setOutTrace (s.outTrace ++ [resolve s a])).advance 2)
  | notEmitted (a : Operand) : i = .out a → outputAnswer s.ports = .failed →
      Ends i s (takeFault .ioFailure s.pc (s.setPorts (afterEmit s.ports)))
  | asked (r : RegIdx) : i = .inp (.reg r) → Ends i s (askInput { dest := r, start := s.pc } s)
  | faulted (c : Cause) : Raises i s c → Ends i s (takeFault c s.pc s)

/-- An immediate destination ends every instruction that has one in `TypeError`. -/
theorem exec_immediate_destination (i : Instr) (s : State) (v : Val) (h : i.dest? = some (.imm v)) :
    exec i s = .next (takeFault .typeError s.pc s) := by
  cases i
  all_goals simp only [Instr.dest?, Option.some.injEq, reduceCtorEq] at h
  all_goals subst h; rfl

/-- Every instruction ends, in one of the ways listed. -/
theorem exec_ends (i : Instr) (s : State) : ∃ t, exec i s = .next t ∧ Ends i s t := by
  by_cases hd : ∃ v, i.dest? = some (.imm v)
  · obtain ⟨v, hv⟩ := hd
    exact ⟨_, exec_immediate_destination i s v hv, .faulted _ (.immediateDestination (by simp [Instr.wf, hv, Operand.isReg]))⟩
  have dest : ∀ d : Operand, i.dest? = some d → ∃ r, d = .reg r := by
    intro d h
    cases d with
    | imm v => exact absurd ⟨v, h⟩ hd
    | reg r => exact ⟨r, rfl⟩
  cases i with
  | halt => exact ⟨_, exec_halt s, .halted (.inl rfl)⟩
  | set d a =>
    obtain ⟨r, rfl⟩ := dest _ rfl
    exact ⟨_, exec_set s r a, .written r _ rfl⟩
  | push a =>
    by_cases h : s.build.stackCapacity = some s.stack.length
    · exact ⟨_, exec_push_full s a h, .faulted _ (.fullStackPush a rfl h)⟩
    · exact ⟨_, exec_push_room s a h, .pushed a rfl h⟩
  | pop d =>
    obtain ⟨r, rfl⟩ := dest _ rfl
    rcases pop?_cases s with ⟨h, _⟩ | ⟨below, v, h, _⟩
    · exact ⟨_, exec_pop_empty s r h, .faulted _ (.emptyStack _ rfl h)⟩
    · exact ⟨_, exec_pop s r below v h, .popped r below v rfl h⟩
  | eq d a b =>
    obtain ⟨r, rfl⟩ := dest _ rfl
    exact ⟨_, exec_eq s r a b, .written r _ rfl⟩
  | gt d a b =>
    obtain ⟨r, rfl⟩ := dest _ rfl
    exact ⟨_, exec_gt s r a b, .written r _ rfl⟩
  | jmp a => exact ⟨_, exec_jmp s a, .jumped _ (.inl ⟨a, rfl⟩)⟩
  | jt a b =>
    by_cases h : (resolve s a).toNat = 0
    · exact ⟨_, exec_jt_not_taken s a b h, .passed (.inr (.inl ⟨a, b, rfl⟩))⟩
    · exact ⟨_, exec_jt_taken s a b h, .jumped _ (.inr (.inl ⟨a, b, rfl⟩))⟩
  | jf a b =>
    by_cases h : (resolve s a).toNat = 0
    · exact ⟨_, exec_jf_taken s a b h, .jumped _ (.inr (.inr ⟨a, b, rfl⟩))⟩
    · exact ⟨_, exec_jf_not_taken s a b h, .passed (.inr (.inr ⟨a, b, rfl⟩))⟩
  | add d a b =>
    obtain ⟨r, rfl⟩ := dest _ rfl
    exact ⟨_, exec_add s r a b, .written r _ rfl⟩
  | mult d a b =>
    obtain ⟨r, rfl⟩ := dest _ rfl
    exact ⟨_, exec_mult s r a b, .written r _ rfl⟩
  | mod d a b =>
    obtain ⟨r, rfl⟩ := dest _ rfl
    by_cases h : (resolve s b).toNat = 0
    · exact ⟨_, exec_mod_zero s r a b h, .faulted _ (.zeroDivisor _ _ _ rfl h)⟩
    · exact ⟨_, exec_mod s r a b h, .written r _ rfl⟩
  | and d a b =>
    obtain ⟨r, rfl⟩ := dest _ rfl
    exact ⟨_, exec_and s r a b, .written r _ rfl⟩
  | or d a b =>
    obtain ⟨r, rfl⟩ := dest _ rfl
    exact ⟨_, exec_or s r a b, .written r _ rfl⟩
  | not d a =>
    obtain ⟨r, rfl⟩ := dest _ rfl
    exact ⟨_, exec_not s r a, .written r _ rfl⟩
  | rmem d a =>
    obtain ⟨r, rfl⟩ := dest _ rfl
    by_cases h : (s.mem.wordAt (resolve s a).toNat).toNat ≤ 32767
    · exact ⟨_, exec_rmem s r a h, .written r _ rfl⟩
    · exact ⟨_, exec_rmem_invalid s r a (by omega), .faulted _ (.wordTooLarge _ _ rfl (by omega))⟩
  | wmem a b => exact ⟨_, exec_wmem s a b, .stored a b rfl⟩
  | call a =>
    by_cases hv : (s.pc + 2).toNat ≤ 32767
    · by_cases h : s.build.stackCapacity = some s.stack.length
      · exact ⟨_, exec_call_full s a hv h, .faulted _ (.fullStackCall a rfl h)⟩
      · have hm := mkVal_value _ hv
        exact ⟨_, exec_call s a _ hm h, .called a _ rfl (mkVal_ok _ _ hm).1 h⟩
    · exact ⟨_, exec_call_invalid s a (by omega), .faulted _ (.returnAddress a rfl (by omega))⟩
  | ret =>
    rcases pop?_cases s with ⟨h, _⟩ | ⟨below, v, h, _⟩
    · exact ⟨_, exec_ret_empty s h, .halted (.inr ⟨rfl, h⟩)⟩
    · exact ⟨_, exec_ret s below v h, .returned below v rfl h⟩
  | out a =>
    cases h : outputAnswer s.ports with
    | accepted => exact ⟨_, exec_out_accepted s a h, .emitted a rfl h⟩
    | failed => exact ⟨_, exec_out_failed s a h, .notEmitted a rfl h⟩
  | inp d =>
    obtain ⟨r, rfl⟩ := dest _ rfl
    exact ⟨_, exec_inp s r, .asked r rfl⟩
  | noop => exact ⟨_, exec_noop s, .passed (.inl rfl)⟩

end Sys2Proof.Machine
end

