-- ==== Sys2Proof/Laws/Step.lean ====
section
/-! SUPPORT. What a step can do, said once: the inversion of `step`, and of the meanings with more than one end. -/

namespace Sys2Proof.Machine

theorem step_ended (s : State) (h : s.ended = true) : step s = .next s := by
  unfold State.ended at h
  unfold step
  split at h <;> simp_all

/-- The cases of a step: the machine has ended, it waits, the fetch or the decoder fails, or an instruction runs. -/
theorem step_cases (s : State) :
    (s.ended = true ∧ step s = .next s) ∨
    (∃ p, s.status = .running ∧ s.waiting = some p ∧ step s = .next (askInput p s)) ∨
    (∃ c, s.status = .running ∧ s.waiting = none ∧ decode (fetchWords s) = .error c ∧
      step s = .next (takeFault c s.pc s)) ∨
    (∃ i, s.status = .running ∧ s.waiting = none ∧ decode (fetchWords s) = .ok i ∧ s.nextInstr = some i ∧
      step s = exec i s) := by
  cases hs : s.status with
  | halted => exact .inl ⟨by simp [State.ended, hs], by simp [step, hs]⟩
  | faulted c a => exact .inl ⟨by simp [State.ended, hs], by simp [step, hs]⟩
  | running =>
    cases hw : s.waiting with
    | some p => exact .inr (.inl ⟨p, rfl, rfl, by simp [step, hs, stepRunning, hw]⟩)
    | none =>
      cases hd : decode (fetchWords s) with
      | error c => exact .inr (.inr (.inl ⟨c, rfl, rfl, rfl, by simp [step, hs, stepRunning, hw, hd]⟩))
      | ok i =>
        exact .inr (.inr (.inr ⟨i, rfl, rfl, rfl, by simp [State.nextInstr, hs, hw, hd],
          by simp [step, hs, stepRunning, hw, hd]⟩))

/-- The same from the state a step answers. -/
theorem step_next_cases (s t : State) (h : step s = .next t) :
    (s.ended = true ∧ t = s) ∨
    (∃ p, s.status = .running ∧ s.waiting = some p ∧ t = askInput p s) ∨
    (∃ c, s.status = .running ∧ s.waiting = none ∧ decode (fetchWords s) = .error c ∧ t = takeFault c s.pc s) ∨
    (∃ i, s.status = .running ∧ s.waiting = none ∧ decode (fetchWords s) = .ok i ∧ s.nextInstr = some i ∧
      Ends i s t) := by
  rcases step_cases s with ⟨h1, h2⟩ | ⟨p, h1, h2, h3⟩ | ⟨c, h1, h2, h3, h4⟩ | ⟨i, h1, h2, h3, h4, h5⟩
  · rw [h2] at h
    cases h
    exact .inl ⟨h1, rfl⟩
  · rw [h3] at h
    cases h
    exact .inr (.inl ⟨p, h1, h2, rfl⟩)
  · rw [h4] at h
    cases h
    exact .inr (.inr (.inl ⟨c, h1, h2, h3, rfl⟩))
  · obtain ⟨t', he, hends⟩ := exec_ends i s
    rw [h5, he] at h
    cases h
    exact .inr (.inr (.inr ⟨i, h1, h2, h3, h4, hends⟩))

/-- The instruction that a running machine's next step runs is the one its fetched words decode to. -/
theorem nextInstr_eq_some (s : State) (i : Instr) :
    s.nextInstr = some i ↔ s.status = .running ∧ s.waiting = none ∧ decode (fetchWords s) = .ok i := by
  constructor
  · intro h
    unfold State.nextInstr at h
    split at h
    · next hs hw =>
      split at h
      · next j hd =>
        cases h
        exact ⟨hs, hw, hd⟩
      · cases h
    · cases h
  · rintro ⟨hs, hw, hd⟩
    simp [State.nextInstr, hs, hw, hd]

/-- A failed check that a meaning raised leaves all but the status, the pointer and the wait. -/
theorem takeFault_faultTaken (c : Cause) (s : State) : FaultTaken c s.pc s (takeFault c s.pc s) :=
  ⟨rfl, rfl, rfl, fun _ => rfl, fun _ => rfl, rfl, rfl, rfl⟩

/-- The words of an instruction fetched from where they stand. -/
theorem fetchFrom_of_wordAt (m : Memory) (ws : List Word) (n a : Nat) (hn : ws.length ≤ n) (ha : a + ws.length ≤ 32768)
    (h : ∀ k, (hk : k < ws.length) → m.wordAt (a + k) = ws[k]) :
    fetchFrom m n a = ws ++ fetchFrom m (n - ws.length) (a + ws.length) := by
  induction ws generalizing n a with
  | nil => simp
  | cons w ws ih =>
    simp only [List.length_cons] at hn ha
    obtain ⟨n, rfl⟩ : ∃ k, n = k + 1 := ⟨n - 1, by omega⟩
    have hw : m.wordAt a = w := h 0 (Nat.succ_pos _)
    rw [fetchFrom_succ m n a (by omega), hw, ih n (a + 1) (by omega) (by omega)]
    · have e1 : a + 1 + ws.length = a + (w :: ws).length := by simp only [List.length_cons]; omega
      have e2 : n - ws.length = n + 1 - (w :: ws).length := by simp only [List.length_cons]; omega
      rw [e1, e2]
      rfl
    · intro k hk
      have := h (k + 1) (by simpa using hk)
      rw [show a + 1 + k = a + (k + 1) by omega]
      exact this

theorem encode_length_le_four (i : Instr) : (encode i).length ≤ 4 := by
  cases i <;> simp [encode, Instr.operands]

/-- What the fetch finds when an instruction stands at the pointer. -/
theorem fetchWords_of_holds (s : State) (i : Instr) (h : s.HoldsAtPointer (encode i)) :
    ∃ rest, fetchWords s = encode i ++ rest :=
  ⟨_, fetchFrom_of_wordAt s.mem (encode i) 4 s.pc.toNat (encode_length_le_four i) h.1 h.2⟩

end Sys2Proof.Machine
end

