-- ==== Sys2Proof/Laws/Fetch.lean ====
section
/-! SUPPORT. What a failed fetch or decoding says of the words at the pointer, said once: which word it is, and what is wrong
with it (R79, R82). -/

namespace Sys2Proof.Machine

/-- The fetch or the decoding of the word at address `a` fails with `c`, the pointer having come as far as `a`. -/
def WordFails (m : Memory) (a : Nat) (c : Cause) : Prop :=
  (c = .unmappedAddress ∧ a = 32768) ∨ (c = .decodeError ∧ a ≤ 32767 ∧ 32776 ≤ (m.wordAt a).toNat)

theorem decodeOperand_error (w : Word) (c : Cause) (h : decodeOperand w = .error c) :
    c = .decodeError ∧ 32776 ≤ w.toNat := by
  by_cases h1 : w.toNat ≤ 32767
  · rw [decodeOperand_immediate w h1] at h
    cases h
  · by_cases h2 : w.toNat ≤ 32775
    · rw [decodeOperand_register w (by omega) h2] at h
      cases h
    · rw [decodeOperand_invalid w (by omega)] at h
      cases h
      exact ⟨rfl, by omega⟩

theorem decodeOperand_eq_imm (w : Word) (v : Val) (h : decodeOperand w = .ok (.imm v)) : w.toNat ≤ 32767 := by
  rw [← encodeOperand_of_decodeOperand w _ h, encodeOperand_imm_toNat]
  have := v.isLt
  omega

/-- Why an operand word that is fetched at `a` fails. -/
theorem takeOperand_fetch_error (m : Memory) (n a : Nat) (c : Cause) (ha : a ≤ 32768)
    (h : takeOperand (fetchFrom m (n + 1) a) = .error c) : WordFails m a c := by
  by_cases hm : a ≤ 32767
  · rw [fetchFrom_succ m n a hm] at h
    simp only [takeOperand] at h
    split at h
    · next hd =>
      cases h
      obtain ⟨hc, hw⟩ := decodeOperand_error _ _ hd
      exact .inr ⟨hc, hm, hw⟩
    · cases h
  · rw [fetchFrom_past_end m (n + 1) a (by omega)] at h
    cases h
    exact .inl ⟨rfl, by omega⟩

/-- What an operand word that is fetched at `a` and decoded leaves. -/
theorem takeOperand_fetch_ok (m : Memory) (n a : Nat) (op : Operand) (rest : List Word)
    (h : takeOperand (fetchFrom m (n + 1) a) = .ok (op, rest)) :
    a ≤ 32767 ∧ decodeOperand (m.wordAt a) = .ok op ∧ rest = fetchFrom m n (a + 1) := by
  by_cases hm : a ≤ 32767
  · rw [fetchFrom_succ m n a hm] at h
    simp only [takeOperand] at h
    split at h
    · cases h
    · next hd =>
      cases h
      exact ⟨hm, hd, rfl⟩
  · rw [fetchFrom_past_end m (n + 1) a (by omega)] at h
    cases h

theorem afterDestination_error (d : Operand) (later : Except Cause Instr) (c : Cause)
    (h : afterDestination d later = .error c) : later = .error c ∨ (c = .typeError ∧ ∃ v, d = .imm v) := by
  unfold afterDestination at h
  split at h
  · cases h
  · cases d with
    | reg r => exact .inl h
    | imm v =>
      cases h
      exact .inr ⟨rfl, v, rfl⟩

/-! ## Formats (R77): why a format decoder fails on the words fetched from `a` on -/

theorem decodeOne_fetch_error (mk : Operand → Instr) (m : Memory) (n a : Nat) (c : Cause) (ha : a ≤ 32768)
    (h : decodeOne mk (fetchFrom m (n + 1) a) = .error c) : WordFails m a c := by
  unfold decodeOne at h
  split at h
  · next ht =>
    cases h
    exact takeOperand_fetch_error m n a _ ha ht
  · cases h

theorem decodeTwo_fetch_error (mk : Operand → Operand → Instr) (m : Memory) (n a : Nat) (c : Cause) (ha : a ≤ 32768)
    (h : decodeTwo mk (fetchFrom m (n + 2) a) = .error c) : WordFails m a c ∨ WordFails m (a + 1) c := by
  unfold decodeTwo at h
  split at h
  · next ht =>
    cases h
    exact .inl (takeOperand_fetch_error m _ a _ ha ht)
  · next ht =>
    obtain ⟨hm, -, rfl⟩ := takeOperand_fetch_ok m _ a _ _ ht
    exact .inr (decodeOne_fetch_error _ m n (a + 1) c (by omega) h)

theorem decodeDestOne_fetch_error (mk : Operand → Operand → Instr) (m : Memory) (n a : Nat) (c : Cause)
    (ha : a ≤ 32768) (h : decodeDestOne mk (fetchFrom m (n + 2) a) = .error c) :
    (WordFails m a c ∨ WordFails m (a + 1) c) ∨ (c = .typeError ∧ a ≤ 32767 ∧ (m.wordAt a).toNat ≤ 32767) := by
  unfold decodeDestOne at h
  split at h
  · next ht =>
    cases h
    exact .inl (.inl (takeOperand_fetch_error m _ a _ ha ht))
  · next ht =>
    obtain ⟨hm, hd, rfl⟩ := takeOperand_fetch_ok m _ a _ _ ht
    rcases afterDestination_error _ _ _ h with h | ⟨hc, v, rfl⟩
    · exact .inl (.inr (decodeOne_fetch_error _ m n (a + 1) c (by omega) h))
    · exact .inr ⟨hc, hm, decodeOperand_eq_imm _ v hd⟩

theorem decodeDestTwo_fetch_error (mk : Operand → Operand → Operand → Instr) (m : Memory) (n a : Nat) (c : Cause)
    (ha : a ≤ 32768) (h : decodeDestTwo mk (fetchFrom m (n + 3) a) = .error c) :
    (WordFails m a c ∨ WordFails m (a + 1) c ∨ WordFails m (a + 2) c) ∨
    (c = .typeError ∧ a ≤ 32767 ∧ (m.wordAt a).toNat ≤ 32767) := by
  unfold decodeDestTwo at h
  split at h
  · next ht =>
    cases h
    exact .inl (.inl (takeOperand_fetch_error m _ a _ ha ht))
  · next ht =>
    obtain ⟨hm, hd, rfl⟩ := takeOperand_fetch_ok m _ a _ _ ht
    rcases afterDestination_error _ _ _ h with h | ⟨hc, v, rfl⟩
    · exact .inl (.inr (decodeTwo_fetch_error _ m n (a + 1) c (by omega) h))
    · exact .inr ⟨hc, hm, decodeOperand_eq_imm _ v hd⟩

/-- Why the operand words of selector `sel` fail: one of them, or an immediate in the place of a destination, or the
selector is none of the table. -/
theorem decodeBody_fetch_error (sel : Nat) (m : Memory) (a : Nat) (c : Cause) (ha : a ≤ 32768)
    (h : decodeBody sel (fetchFrom m 3 a) = .error c) :
    (c = .unknownOpcode ∧ 22 ≤ sel) ∨
    (sel ≤ 21 ∧ ∃ k, k < operandCount sel ∧ WordFails m (a + k) c) ∨
    (sel ≤ 21 ∧ c = .typeError ∧ hasDestination sel = true ∧ a ≤ 32767 ∧ (m.wordAt a).toNat ≤ 32767) := by
  by_cases hs : 22 ≤ sel
  · rw [decodeBody_unknown sel _ hs] at h
    cases h
    exact .inl ⟨rfl, hs⟩
  · have hs' : sel ≤ 21 := by omega
    refine .inr ?_
    have one : ∀ mk, 1 ≤ operandCount sel → decodeOne mk (fetchFrom m 3 a) = .error c →
        ∃ k, k < operandCount sel ∧ WordFails m (a + k) c :=
      fun mk hn h => ⟨0, hn, decodeOne_fetch_error mk m 2 a c ha h⟩
    have two : ∀ mk, 2 ≤ operandCount sel → decodeTwo mk (fetchFrom m 3 a) = .error c →
        ∃ k, k < operandCount sel ∧ WordFails m (a + k) c := fun mk hn h =>
      (decodeTwo_fetch_error mk m 1 a c ha h).elim (fun h => ⟨0, by omega, h⟩) (fun h => ⟨1, by omega, h⟩)
    have destOne : ∀ mk, 2 ≤ operandCount sel → decodeDestOne mk (fetchFrom m 3 a) = .error c →
        (∃ k, k < operandCount sel ∧ WordFails m (a + k) c) ∨
        (c = .typeError ∧ a ≤ 32767 ∧ (m.wordAt a).toNat ≤ 32767) := fun mk hn h =>
      (decodeDestOne_fetch_error mk m 1 a c ha h).imp_left
        (Or.elim · (fun h => ⟨0, by omega, h⟩) (fun h => ⟨1, by omega, h⟩))
    have destTwo : ∀ mk, 3 ≤ operandCount sel → decodeDestTwo mk (fetchFrom m 3 a) = .error c →
        (∃ k, k < operandCount sel ∧ WordFails m (a + k) c) ∨
        (c = .typeError ∧ a ≤ 32767 ∧ (m.wordAt a).toNat ≤ 32767) := fun mk hn h =>
      (decodeDestTwo_fetch_error mk m 0 a c ha h).imp_left
        (Or.elim · (fun h => ⟨0, by omega, h⟩) (Or.elim · (fun h => ⟨1, by omega, h⟩) (fun h => ⟨2, by omega, h⟩)))
    interval_cases sel
    all_goals first
      | cases h
      | exact .inl ⟨hs', one _ (by decide) h⟩
      | exact .inl ⟨hs', two _ (by decide) h⟩
      | exact (destOne _ (by decide) h).elim (fun h => .inl ⟨hs', h⟩) (fun h => .inr ⟨hs', h.1, by decide, h.2⟩)
      | exact (destTwo _ (by decide) h).elim (fun h => .inl ⟨hs', h⟩) (fun h => .inr ⟨hs', h.1, by decide, h.2⟩)

/-- Why the fetch and the decoding at the pointer fail (R79, R82). -/
theorem decode_fetchWords_error (s : State) (c : Cause) (h : decode (fetchWords s) = .error c) :
    (c = .unmappedAddress ∧ ((∃ k, s.AsksForWord k ∧ s.pc.toNat + k = 32768) ∨ 32768 < s.pc.toNat)) ∨
    (c = .decodeError ∧ ∃ k, s.AsksForWord k ∧ s.pc.toNat + k ≤ 32767 ∧ 32776 ≤ (s.instrWord k).toNat) ∨
    (c = .typeError ∧ s.pc.toNat ≤ 32767 ∧
      ((32768 ≤ (s.instrWord 0).toNat ∧ (s.instrWord 0).toNat ≤ 32775) ∨
       ((s.instrWord 0).toNat ≤ 21 ∧ hasDestination (s.instrWord 0).toNat = true ∧ s.pc.toNat + 1 ≤ 32767 ∧
        (s.instrWord 1).toNat ≤ 32767))) ∨
    (c = .unknownOpcode ∧ s.pc.toNat ≤ 32767 ∧ 22 ≤ (s.instrWord 0).toNat ∧ (s.instrWord 0).toNat ≤ 32767) := by
  by_cases hp : s.pc.toNat ≤ 32767
  · rw [show fetchWords s = s.instrWord 0 :: fetchFrom s.mem 3 (s.pc.toNat + 1) from fetchFrom_succ _ _ _ hp] at h
    by_cases h1 : (s.instrWord 0).toNat ≤ 32767
    · simp only [decode, decodeSelector_immediate _ h1] at h
      rcases decodeBody_fetch_error _ _ _ _ (by omega) h with ⟨rfl, hu⟩ | ⟨hs, k, hk, hw⟩ | ⟨hs, rfl, hd, ha, hw⟩
      · exact .inr (.inr (.inr ⟨rfl, hp, hu, h1⟩))
      · have ask : s.AsksForWord (k + 1) := .inr ⟨hp, hs, hk⟩
        rw [show s.pc.toNat + 1 + k = s.pc.toNat + (k + 1) by omega] at hw
        rcases hw with ⟨rfl, he⟩ | ⟨rfl, hl, hw⟩
        · exact .inl ⟨rfl, .inl ⟨k + 1, ask, he⟩⟩
        · exact .inr (.inl ⟨rfl, k + 1, ask, hl, hw⟩)
      · exact .inr (.inr (.inl ⟨rfl, hp, .inr ⟨hs, hd, ha, hw⟩⟩))
    · by_cases h2 : (s.instrWord 0).toNat ≤ 32775
      · simp only [decode, decodeSelector_register _ (by omega) h2] at h
        cases h
        exact .inr (.inr (.inl ⟨rfl, hp, .inl ⟨by omega, h2⟩⟩))
      · simp only [decode, decodeSelector_invalid (s.instrWord 0) (by omega)] at h
        cases h
        exact .inr (.inl ⟨rfl, 0, .inl rfl, hp, by omega⟩)
  · rw [show fetchWords s = [] from fetchFrom_past_end _ _ _ (by omega)] at h
    cases h
    refine .inl ⟨rfl, ?_⟩
    by_cases he : s.pc.toNat = 32768
    · exact .inl ⟨0, .inl rfl, he⟩
    · exact .inr (by omega)

theorem immediate_destination_of_not_wf (i : Instr) (h : i.wf = false) :
    hasDestination i.selector = true ∧ i.selector ≤ 21 ∧ ∃ v later, i.operands = .imm v :: later := by
  have dest : ∀ d : Operand, d.isReg = false → ∃ v, d = .imm v := fun d hd => by
    cases d with
    | imm v => exact ⟨v, rfl⟩
    | reg r => cases hd
  cases i
  all_goals first
    | cases h
    | obtain ⟨v, rfl⟩ := dest _ h
      exact ⟨by simp [hasDestination, Instr.selector], by simp [Instr.selector], v, _, rfl⟩

/-- The words at the pointer where an instruction decodes and its destination is an immediate (entry 9). -/
theorem words_of_immediate_destination (s : State) (i : Instr) (h : decode (fetchWords s) = .ok i)
    (hi : i.wf = false) : s.pc.toNat ≤ 32767 ∧ (s.instrWord 0).toNat ≤ 21 ∧
      hasDestination (s.instrWord 0).toNat = true ∧ s.pc.toNat + 1 ≤ 32767 ∧ (s.instrWord 1).toNat ≤ 32767 := by
  obtain ⟨hd, hs, v, later, ho⟩ := immediate_destination_of_not_wf i hi
  have hp : s.pc.toNat ≤ 32767 := by
    by_contra hp
    rw [show fetchWords s = [] from fetchFrom_past_end _ _ _ (by omega)] at h
    cases h
  rw [show fetchWords s = s.instrWord 0 :: fetchFrom s.mem 3 (s.pc.toNat + 1) from fetchFrom_succ _ _ _ hp] at h
  simp only [decode] at h
  split at h
  · cases h
  · next sel hsel =>
    obtain ⟨rfl, rest, hr⟩ := decodeBody_ok _ _ _ h
    obtain ⟨he, -⟩ := decodeSelector_ok _ _ hsel
    rw [ho, List.map_cons, List.cons_append] at hr
    have hp1 : s.pc.toNat + 1 ≤ 32767 := by
      by_contra hp1
      rw [fetchFrom_past_end _ _ _ (by omega)] at hr
      cases hr
    rw [fetchFrom_succ _ _ _ hp1] at hr
    have hw : s.instrWord 1 = encodeOperand (.imm v) := (List.cons.inj hr).1
    refine ⟨hp, he ▸ hs, he ▸ hd, hp1, ?_⟩
    rw [hw, encodeOperand_imm_toNat]
    have := v.isLt
    omega

end Sys2Proof.Machine
end

