-- ==== Sys2Proof/Laws/PerInstr.lean ====
section
/-! SUPPORT. The family `Shape`: for each instruction, its encoding begins with a selector of the table and has the length
the table gives that selector (R78, R80). -/

namespace Sys2Proof.Laws.Shape

/-- The selector word is the instruction's number in [0, 21], and the number of words is 1 + n(sel). -/
def Statement (i : Instr) : Prop :=
  (encode i).head? = some (BitVec.ofNat 16 i.selector) ∧ i.selector ≤ 21 ∧
    (encode i).length = 1 + operandCount i.selector

theorem halt : Statement .halt := ⟨rfl, by decide, rfl⟩
theorem set (d a : Operand) : Statement (.set d a) := ⟨rfl, by simp [Instr.selector], rfl⟩
theorem push (a : Operand) : Statement (.push a) := ⟨rfl, by simp [Instr.selector], rfl⟩
theorem pop (d : Operand) : Statement (.pop d) := ⟨rfl, by simp [Instr.selector], rfl⟩
theorem eq (d a b : Operand) : Statement (.eq d a b) := ⟨rfl, by simp [Instr.selector], rfl⟩
theorem gt (d a b : Operand) : Statement (.gt d a b) := ⟨rfl, by simp [Instr.selector], rfl⟩
theorem jmp (a : Operand) : Statement (.jmp a) := ⟨rfl, by simp [Instr.selector], rfl⟩
theorem jt (a b : Operand) : Statement (.jt a b) := ⟨rfl, by simp [Instr.selector], rfl⟩
theorem jf (a b : Operand) : Statement (.jf a b) := ⟨rfl, by simp [Instr.selector], rfl⟩
theorem add (d a b : Operand) : Statement (.add d a b) := ⟨rfl, by simp [Instr.selector], rfl⟩
theorem mult (d a b : Operand) : Statement (.mult d a b) := ⟨rfl, by simp [Instr.selector], rfl⟩
theorem mod (d a b : Operand) : Statement (.mod d a b) := ⟨rfl, by simp [Instr.selector], rfl⟩
theorem and (d a b : Operand) : Statement (.and d a b) := ⟨rfl, by simp [Instr.selector], rfl⟩
theorem or (d a b : Operand) : Statement (.or d a b) := ⟨rfl, by simp [Instr.selector], rfl⟩
theorem not (d a : Operand) : Statement (.not d a) := ⟨rfl, by simp [Instr.selector], rfl⟩
theorem rmem (d a : Operand) : Statement (.rmem d a) := ⟨rfl, by simp [Instr.selector], rfl⟩
theorem wmem (a b : Operand) : Statement (.wmem a b) := ⟨rfl, by simp [Instr.selector], rfl⟩
theorem call (a : Operand) : Statement (.call a) := ⟨rfl, by simp [Instr.selector], rfl⟩
theorem ret : Statement .ret := ⟨rfl, by decide, rfl⟩
theorem out (a : Operand) : Statement (.out a) := ⟨rfl, by simp [Instr.selector], rfl⟩
theorem inp (d : Operand) : Statement (.inp d) := ⟨rfl, by simp [Instr.selector], rfl⟩
theorem noop : Statement .noop := ⟨rfl, by decide, rfl⟩

end Sys2Proof.Laws.Shape
end

