-- ==== Sys2Proof/Tests/Slice0.lean ====
section
/-! SUPPORT. The model's own tests. Expected results are the spec's: its opcode map (R78), its rules' examples and its test
vectors (`95_test_vectors.md`). After them, a witness for each statement that has hypotheses. -/

namespace Sys2Proof.Tests

open Sys2Proof Sys2Proof.Machine

/-! ## Helpers -/

/-- The reset machine with words from address 0 on. -/
def start (ws : List Word) : State := State.reset.setMem (Memory.setWords [] 0 ws)

/-- The reset machine with words from address `a` on, and the pointer there. -/
def startAt (a : Nat) (ws : List Word) : State :=
  (State.reset.setMem (Memory.setWords [] a ws)).setPc (BitVec.ofNat 16 a)

/-- The same machine in a build with a stack capacity. -/
def withCapacity (k : Nat) (s : State) : State := { s with build := { s.build with stackCapacity := some k } }

/-- The same machine in a build with a sentinel byte. -/
def withSentinel (b : Byte) (s : State) : State := { s with build := { s.build with sentinel := some b } }

/-- The same machine with the input port's next events. -/
def withInput (es : List (Option InputAnswer)) (s : State) : State := s.setPorts { s.ports with inputScript := es }

/-- The same machine with the output port's next answers. -/
def withOutput (es : List OutputAnswer) (s : State) : State := s.setPorts { s.ports with outputScript := es }

def isNext (o : Host.Outcome State Fault Refusal) : Bool :=
  match o with
  | .next _ => true
  | .fault _ => false
  | .refused _ => false

/-- The next state of an outcome. -/
def after (o : Host.Outcome State Fault Refusal) : State :=
  match o with
  | .next t => t
  | .fault _ => State.reset
  | .refused _ => State.reset

theorem eq_next_after (o : Host.Outcome State Fault Refusal) (h : isNext o = true) : o = .next (after o) := by
  cases o with
  | next t => rfl
  | fault r => cases h
  | refused r => cases h

/-! ## WellFormed: the one check, a destination is a register (R74, R76) -/

theorem test_wf_refuses_immediate_destinations :
    (Instr.set (.imm 5) (.imm 5)).wf = false ∧ (Instr.pop (.imm 5)).wf = false ∧
    (Instr.eq (.imm 0) (.reg 0) (.reg 1)).wf = false ∧ (Instr.gt (.imm 0) (.reg 0) (.reg 1)).wf = false ∧
    (Instr.add (.imm 0) (.reg 0) (.reg 1)).wf = false ∧ (Instr.mult (.imm 0) (.reg 0) (.reg 1)).wf = false ∧
    (Instr.mod (.imm 0) (.reg 0) (.reg 1)).wf = false ∧ (Instr.and (.imm 0) (.reg 0) (.reg 1)).wf = false ∧
    (Instr.or (.imm 0) (.reg 0) (.reg 1)).wf = false ∧ (Instr.not (.imm 0) (.reg 0)).wf = false ∧
    (Instr.rmem (.imm 0) (.reg 0)).wf = false ∧ (Instr.inp (.imm 7)).wf = false := by decide

theorem test_wf_accepts :
    (Instr.set (.reg 7) (.imm 5)).wf = true ∧ (Instr.wmem (.imm 0) (.imm 0)).wf = true ∧ Instr.halt.wf = true := by
  decide

/-! ## Decode: every constructor, words written out from R78 and R71 -/

theorem test_decode_control : decode [0x0000] = .ok .halt ∧ decode [0x0015] = .ok .noop := by decide

theorem test_decode_data_stack : decode [0x0001, 0x8002, 0x8007] = .ok (.set (.reg 2) (.reg 7)) ∧
    decode [0x0002, 0x8003] = .ok (.push (.reg 3)) ∧ decode [0x0003, 0x8000] = .ok (.pop (.reg 0)) := by decide

theorem test_decode_compare : decode [0x0004, 0x8000, 0x0000, 0x0001] = .ok (.eq (.reg 0) (.imm 0) (.imm 1)) ∧
    decode [0x0005, 0x8001, 0x0003, 0x0002] = .ok (.gt (.reg 1) (.imm 3) (.imm 2)) := by decide

theorem test_decode_jump : decode [0x0006, 0x000A] = .ok (.jmp (.imm 10)) ∧
    decode [0x0007, 0x8000, 0x0006] = .ok (.jt (.reg 0) (.imm 6)) ∧
    decode [0x0008, 0x0000, 0x0064] = .ok (.jf (.imm 0) (.imm 100)) := by decide

theorem test_decode_alu : decode [0x0009, 0x8000, 0x7FF8, 0x000A] = .ok (.add (.reg 0) (.imm 32760) (.imm 10)) ∧
    decode [0x000A, 0x8001, 0x012C, 0x00C8] = .ok (.mult (.reg 1) (.imm 300) (.imm 200)) ∧
    decode [0x000B, 0x8002, 0x000A, 0x0003] = .ok (.mod (.reg 2) (.imm 10) (.imm 3)) ∧
    decode [0x000C, 0x8000, 0x1234, 0x00FF] = .ok (.and (.reg 0) (.imm 0x1234) (.imm 0x00FF)) ∧
    decode [0x000D, 0x8000, 0x1200, 0x0034] = .ok (.or (.reg 0) (.imm 0x1200) (.imm 0x0034)) ∧
    decode [0x000E, 0x8003, 0x0001] = .ok (.not (.reg 3) (.imm 1)) := by decide

theorem test_decode_memory : decode [0x000F, 0x8000, 0x0064] = .ok (.rmem (.reg 0) (.imm 100)) ∧
    decode [0x0010, 0x0064, 0x002A] = .ok (.wmem (.imm 100) (.imm 42)) := by decide

theorem test_decode_call_ret : decode [0x0011, 0x0009] = .ok (.call (.imm 9)) ∧ decode [0x0012] = .ok .ret := by decide

theorem test_decode_io : decode [0x0013, 0x7FFF] = .ok (.out (.imm 32767)) ∧
    decode [0x0014, 0x8007] = .ok (.inp (.reg 7)) := by decide

/-- The little-endian bytes of `set r0, 5` (R54). -/
theorem test_decode_bytes : decodeBytes [0x01, 0x00, 0x00, 0x80, 0x05, 0x00] = .ok (.set (.reg 0) (.imm 5)) := by decide

theorem test_encode : encode (.set (.reg 0) (.imm 5)) = [1, 32768, 5] ∧
    encode (.mult (.reg 1) (.imm 300) (.imm 200)) = [10, 32769, 300, 200] ∧ encode .noop = [21] := by decide

/-- Section 2.1 of the vectors: the selector words. -/
theorem test_decode_bad_selectors : decode [22] = .error .unknownOpcode ∧ decode [32767] = .error .unknownOpcode ∧
    decode [32768] = .error .typeError ∧ decode [32775] = .error .typeError ∧
    decode [32776] = .error .decodeError ∧ decode [65535] = .error .decodeError := by decide

/-- Section 2.1 of the vectors: the first failing check of several. -/
theorem test_decode_first_fault : decode [9, 5, 40000, 0] = .error .typeError ∧
    decode [9, 32768, 40000, 0] = .error .decodeError ∧ decode [11, 32768, 5, 40000] = .error .decodeError ∧
    decode [7, 0, 40000] = .error .decodeError := by decide

theorem test_table_word : decodeTableWord 16 21 = some .noop ∧
    decodeTableWord 48 0x000580000001 = some (.set (.reg 0) (.imm 5)) ∧ decodeTableWord 16 22 = none := by decide

/-! ## One step of each instruction (the examples of its rule, `95_test_vectors.md` section 2) -/

theorem test_step_halt : (after (step (start [0]))).status = .halted ∧ (after (step (start [0]))).pc = 1 := by decide

theorem test_step_halt_at_the_end : (after (step (startAt 32767 [0]))).status = .halted ∧
    (after (step (startAt 32767 [0]))).pc = 32768 := by decide

theorem test_step_noop : (after (step (start [21]))).status = .running ∧ (after (step (start [21]))).pc = 1 := by decide

theorem test_step_fetch_past_the_end :
    (after (step (startAt 32768 []))).status = .faulted .unmappedAddress 32768 := by decide

theorem test_step_operand_past_the_end :
    (after (step (startAt 32767 [2]))).status = .faulted .unmappedAddress 32767 := by decide

theorem test_step_set : (after (step (start [1, 32768, 5]))).reg 0 = 5 ∧ (after (step (start [1, 32768, 5]))).pc = 3 := by
  decide

theorem test_step_set_immediate_destination : (after (step (start [1, 5, 5]))).status = .faulted .typeError 0 ∧
    (after (step (start [1, 5, 5]))).pc = 0 := by decide

theorem test_step_push : (after (step (((start [2, 32771]).setReg 3 12).setStack [7]))).stack = [7, 12] := by decide

theorem test_step_push_full :
    (after (step (withCapacity 1 ((startAt 2 [2, 2]).setStack [1])))).status = .faulted .stackOverflow 2 ∧
    (after (step (withCapacity 1 ((startAt 2 [2, 2]).setStack [1])))).stack = [1] := by decide

theorem test_step_pop : (after (step ((start [3, 32768]).setStack [7, 12]))).reg 0 = 12 ∧
    (after (step ((start [3, 32768]).setStack [7, 12]))).stack = [7] := by decide

theorem test_step_pop_empty : (after (step ((start [3, 32768]).setReg 0 4))).status = .faulted .stackUnderflow 0 ∧
    (after (step ((start [3, 32768]).setReg 0 4))).reg 0 = 4 := by decide

theorem test_step_eq : (after (step (start [4, 32768, 32767, 32767]))).reg 0 = 1 ∧
    (after (step ((start [4, 32768, 5, 6]).setReg 0 9))).reg 0 = 0 := by decide

theorem test_step_gt_unsigned : (after (step (start [5, 32768, 16384, 16383]))).reg 0 = 1 ∧
    (after (step ((start [5, 32768, 5, 5]).setReg 0 9))).reg 0 = 0 := by decide

theorem test_step_gt_reads_before_it_writes : (after (step ((start [5, 32768, 32768, 1]).setReg 0 2))).reg 0 = 1 := by
  decide

theorem test_step_jmp : (after (step ((start [6, 32769]).setReg 1 500))).pc = 500 := by decide

theorem test_step_jt : (after (step ((start [7, 32768, 6]).setReg 0 4))).pc = 6 ∧
    (after (step (start [7, 32768, 6]))).pc = 3 := by decide

theorem test_step_jf : (after (step (start [8, 0, 100]))).pc = 100 ∧
    (after (step ((start [8, 32768, 100]).setReg 0 1))).pc = 3 := by decide

theorem test_step_add_wraps : (after (step (start [9, 32768, 32767, 32767]))).reg 0 = 32766 ∧
    (after (step ((start [9, 32768, 32768, 32768]).setReg 0 20000))).reg 0 = 7232 := by decide

theorem test_step_mult : (after (step (start [10, 32769, 300, 200]))).reg 1 = 27232 ∧
    (after (step (start [10, 32769, 32767, 32767]))).reg 1 = 1 := by decide

theorem test_step_mod : (after (step (start [11, 32770, 10, 3]))).reg 2 = 1 ∧
    (after (step (start [11, 32770, 3, 10]))).reg 2 = 3 := by decide

theorem test_step_mod_zero : (after (step ((start [11, 32770, 7, 0]).setReg 2 9))).status = .faulted .divisionByZero 0 ∧
    (after (step ((start [11, 32770, 7, 0]).setReg 2 9))).reg 2 = 9 := by decide

theorem test_step_and : (after (step (start [12, 32768, 4660, 255]))).reg 0 = 52 := by decide

theorem test_step_or : (after (step (start [13, 32768, 4608, 52]))).reg 0 = 4660 := by decide

theorem test_step_not : (after (step (start [14, 32768, 0]))).reg 0 = 32767 ∧
    (after (step (start [14, 32768, 21845]))).reg 0 = 10922 := by decide

theorem test_step_rmem : (after (step (start [15, 32768, 0]))).reg 0 = 15 := by decide

theorem test_step_rmem_invalid : (after (step (start [15, 32768, 1]))).status = .faulted .invalidValue 0 := by decide

theorem test_step_wmem : (after (step (start [16, 32767, 32767]))).mem.wordAt 32767 = 32767 ∧
    (after (step (start [16, 100, 42]))).mem.wordAt 100 = 42 := by decide

/-- Writing 0 over code takes its bytes out of the list: the first word of `out 65` at address 4 (program P4). -/
theorem test_step_wmem_zero : (after (step (start [16, 4, 0, 21, 19, 65]))).mem =
    Memory.setWords [] 0 [16, 4, 0, 21, 0, 65] := by decide

theorem test_step_call : (after (step (startAt 2 [17, 9]))).stack = [4] ∧ (after (step (startAt 2 [17, 9]))).pc = 9 := by
  decide

theorem test_step_call_at_the_end : (after (step (startAt 32766 [17, 5]))).status = .faulted .invalidValue 32766 ∧
    (after (step (startAt 32766 [17, 5]))).stack = [] := by decide

theorem test_step_ret : (after (step ((start [18]).setStack [5]))).pc = 5 ∧
    (after (step ((start [18]).setStack [5]))).stack = [] := by decide

theorem test_step_ret_empty : (after (step (start [18]))).status = .halted ∧ (after (step (start [18]))).pc = 1 := by
  decide

theorem test_step_out : (after (step (withOutput [.accepted] (start [19, 32767])))).outTrace = [32767] := by decide

theorem test_step_out_failed : (after (step (withOutput [.failed] (start [19, 65])))).status = .faulted .ioFailure 0 ∧
    (after (step (withOutput [.failed] (start [19, 65])))).outTrace = [] := by decide

theorem test_step_in : (after (step (withInput [some (.byte 65)] (start [20, 32768])))).reg 0 = 65 ∧
    (after (step (withInput [some (.byte 65)] (start [20, 32768])))).pc = 2 := by decide

theorem test_step_in_closed :
    (after (step (withInput [some .closed] (start [20, 32768])))).status = .faulted .ioFailure 0 := by decide

/-- The sentinel never reaches the core: the read goes on, and the next byte answers it. -/
theorem test_step_in_sentinel :
    (after (step (withSentinel 33 (withInput [some (.byte 33), some (.byte 7)] (start [20, 32768]))))).waiting =
      some { dest := 0, start := 0 } ∧
    (after (step (after (step (withSentinel 33
      (withInput [some (.byte 33), some (.byte 7)] (start [20, 32768]))))))).reg 0 = 7 := by decide

/-- A malformed `in` consumes no input. -/
theorem test_step_in_immediate_destination :
    (after (step (withInput [some (.byte 65)] (start [20, 5])))).status = .faulted .typeError 0 ∧
    (after (step (withInput [some (.byte 65)] (start [20, 5])))).ports.inputScript = [some (.byte 65)] := by decide

theorem test_load : (after (load Build.reset Ports.reset [0x0F, 0x00, 0x00, 0x80])).mem.wordAt 1 = 32768 ∧
    isNext (load Build.reset Ports.reset [0x0F, 0x00, 0x00]) = false := by decide

theorem test_report : (after (step (start [3, 32768]))).report = some (.faulted .stackUnderflow 0 0) ∧
    (after (step (start [18]))).report = some (.halted 1) := by decide

/-- The placed word is what the first step runs. -/
theorem test_withFetchWord : (after (step (State.reset.withFetchWord 48 0x000580000001))).reg 0 = 5 := by decide

/-- Writing the value an unlisted byte reads as takes the entry out of the list. -/
theorem test_memory_canonical : Memory.setByte [(3, 7)] 3 0 = [] ∧ Memory.setByte [(3, 7)] 2 9 = [(2, 9), (3, 7)] ∧
    Memory.wf [(2, 9), (3, 7)] = true ∧ Memory.wf [(3, 7), (2, 9)] = false ∧ Memory.wf [(3, 0)] = false := by decide

/-! ## Witnesses: concrete states and operands that meet the hypotheses of each statement -/

theorem witness_DecodedWordsBeginWithTheEncoding : decode [19, 65, 0] = .ok (.out (.imm 65)) := by decide

theorem witness_OperandWordsFallInThreeClasses :
    ((0x7FFF : Word).toNat ≤ 32767) ∧ (32768 ≤ (0x8000 : Word).toNat ∧ (0x8007 : Word).toNat ≤ 32775) ∧
    32776 ≤ (0x8008 : Word).toNat := by decide

theorem witness_LengthFollowsFromTheSelector :
    decode (9 :: [0x8000, 1, 2]) = .ok (.add (.reg 0) (.imm 1) (.imm 2)) := by decide

theorem witness_StepRunsTheDecodedInstruction : (start [21]).status = .running ∧ (start [21]).waiting = none ∧
    decode (fetchWords (start [21])) = .ok .noop := by decide

/-- At the very end of memory. -/
theorem witness_StepRunsTheInstructionInMemory :
    (startAt 32766 [17, 5]).status = .running ∧ (startAt 32766 [17, 5]).waiting = none ∧
    (startAt 32766 [17, 5]).HoldsAtPointer (encode (.call (.imm 5))) := by
  unfold State.HoldsAtPointer
  decide

theorem witness_PlacedTableWordRuns : (startAt 32764 []).mem.wf = true ∧ (startAt 32764 []).pc.toNat ≤ 32764 ∧
    decodeTableWord 16 21 = some .noop := by decide

theorem witness_MalformedSelectorFaults_invalid : (start [32776]).status = .running ∧ (start [32776]).waiting = none ∧
    (start [32776]).pc.toNat ≤ 32767 ∧ ((start [32776]).mem.wordAt (start [32776]).pc.toNat).toNat ≥ 32776 := by decide

theorem witness_MalformedSelectorFaults_register : (startAt 32767 [32775]).status = .running ∧
    (startAt 32767 [32775]).waiting = none ∧ (startAt 32767 [32775]).pc.toNat ≤ 32767 ∧
    ((startAt 32767 [32775]).mem.wordAt (startAt 32767 [32775]).pc.toNat).toNat ≥ 32768 ∧
    ((startAt 32767 [32775]).mem.wordAt (startAt 32767 [32775]).pc.toNat).toNat ≤ 32775 := by decide

theorem witness_MalformedSelectorFaults_unknown : (start [22]).status = .running ∧ (start [22]).waiting = none ∧
    (start [22]).pc.toNat ≤ 32767 ∧ ((start [22]).mem.wordAt (start [22]).pc.toNat).toNat ≥ 22 ∧
    ((start [22]).mem.wordAt (start [22]).pc.toNat).toNat ≤ 32767 := by decide

theorem witness_FetchPastTheEndFaults : (startAt 32768 []).status = .running ∧ (startAt 32768 []).waiting = none ∧
    (startAt 32768 []).pc.toNat = 32768 := by decide

/-- The common hypotheses of `FirstBadOperandWordDecidesTheFault`. -/
def GoodBefore (s : State) (k : Nat) : Prop :=
  s.status = .running ∧ s.waiting = none ∧ s.pc.toNat ≤ 32767 ∧ (s.mem.wordAt s.pc.toNat).toNat ≤ 21 ∧ 1 ≤ k ∧
    k ≤ operandCount (s.mem.wordAt s.pc.toNat).toNat ∧
    ∀ j, 1 ≤ j → j < k → (s.mem.wordAt (s.pc.toNat + j)).toNat ≤ 32775 ∧
      (j = 1 → hasDestination (s.mem.wordAt s.pc.toNat).toNat = true → 32768 ≤ (s.mem.wordAt (s.pc.toNat + j)).toNat)

theorem witness_FirstBadOperandWord_missing :
    GoodBefore (startAt 32767 [2]) 1 ∧ (startAt 32767 [2]).pc.toNat + 1 = 32768 :=
  ⟨⟨by decide, by decide, by decide, by decide, by decide, by decide, fun j h h' => absurd h' (by omega)⟩, by decide⟩

theorem witness_FirstBadOperandWord_invalid :
    GoodBefore (start [9, 32775, 32775, 32776]) 3 ∧ (start [9, 32775, 32775, 32776]).pc.toNat + 3 ≤ 32767 ∧
    32776 ≤ ((start [9, 32775, 32775, 32776]).mem.wordAt ((start [9, 32775, 32775, 32776]).pc.toNat + 3)).toNat := by
  refine ⟨⟨by decide, by decide, by decide, by decide, by decide, by decide, ?_⟩, by decide, by decide⟩
  intro j h h'
  obtain rfl | rfl : j = 1 ∨ j = 2 := by omega
  · decide
  · decide

theorem witness_FirstBadOperandWord_immediateDestination :
    GoodBefore (startAt 32766 [9, 32767]) 1 ∧ (startAt 32766 [9, 32767]).pc.toNat + 1 ≤ 32767 ∧
    hasDestination ((startAt 32766 [9, 32767]).mem.wordAt (startAt 32766 [9, 32767]).pc.toNat).toNat = true ∧
    ((startAt 32766 [9, 32767]).mem.wordAt ((startAt 32766 [9, 32767]).pc.toNat + 1)).toNat ≤ 32767 :=
  ⟨⟨by decide, by decide, by decide, by decide, by decide, by decide, fun j h h' => absurd h' (by omega)⟩, by decide,
    by decide, by decide⟩

theorem witness_ImmediateDestinationTakesTypeError : (Instr.rmem (.imm 32767) (.imm 0)).wf = false := by decide

theorem witness_NextInstructionStartsAfterTheLastWord : (start [1, 32768, 5]).nextInstr = some (.set (.reg 0) (.imm 5)) ∧
    step (start [1, 32768, 5]) = .next (after (step (start [1, 32768, 5]))) ∧
    (after (step (start [1, 32768, 5]))).ended = false ∧ (Instr.set (.reg 0) (.imm 5)) ≠ .ret :=
  ⟨by decide, eq_next_after _ (by decide), by decide, by decide⟩

theorem witness_PushAppendsTheValue : (start []).build.stackCapacity ≠ some (start []).stack.length ∧
    (withCapacity 1 (start [])).build.stackCapacity ≠ some (withCapacity 1 (start [])).stack.length := by decide

theorem witness_FullStackOverflows : (withCapacity 0 (start [])).build.stackCapacity =
      some (withCapacity 0 (start [])).stack.length ∧
    (withCapacity 1 (start [])).build.stackCapacity ≠ some (withCapacity 1 (start [])).stack.length ∧
    (start []).build.stackCapacity = none ∧
    ((withCapacity 0 (startAt 32765 [])).pc.toNat + 2 ≤ 32767 ∧ (withCapacity 0 (startAt 32765 [])).build.stackCapacity =
      some (withCapacity 0 (startAt 32765 [])).stack.length) := by decide

theorem witness_PopTakesTheTop : ((start []).setStack [7, 32767]).stack = [7] ++ [32767] ∧ (start []).stack = [] := by
  decide

theorem witness_EqWritesWhetherEqual : (resolve (start []) (.imm 32767)).toNat = (resolve (start []) (.imm 32767)).toNat ∧
    (resolve (start []) (.imm 5)).toNat ≠ (resolve (start []) (.reg 0)).toNat := by decide

theorem witness_GtWritesWhetherGreater :
    (resolve (start []) (.imm 16384)).toNat > (resolve (start []) (.imm 16383)).toNat ∧
    (resolve (start []) (.imm 5)).toNat ≤ (resolve (start []) (.imm 5)).toNat := by decide

theorem witness_JtJumpsOnNonzero_and_JfJumpsOnZero :
    (resolve (start []) (.imm 1)).toNat ≠ 0 ∧ (resolve (start []) (.reg 7)).toNat = 0 := by decide

theorem witness_ModWritesTheRemainder :
    (resolve (start []) (.imm 1)).toNat ≠ 0 ∧ (resolve (start []) (.imm 0)).toNat = 0 := by decide

theorem witness_RemainderIsTheUniqueOne :
    (32767 : Val).toNat ≠ 0 ∧ (0 : Val).toNat = 0 ∧ (6 : Nat) < (32767 : Val).toNat ∧
    (6 : Val).toNat = 0 * (32767 : Val).toNat + 6 := by decide

theorem witness_RmemReadsTheWord : ((start [32767, 32768]).mem.wordAt (resolve (start [32767, 32768]) (.imm 0)).toNat).toNat ≤
      32767 ∧
    ((start [32767, 32768]).mem.wordAt (resolve (start [32767, 32768]) (.imm 1)).toNat).toNat > 32767 := by decide

theorem witness_WmemStoresTheValue : (start [32767, 32768]).mem.wf = true := by decide

theorem witness_StoredValueReadsBack : (start []).mem.wf = true ∧
    exec (.wmem (.imm 32767) (.imm 42)) (start []) = .next (after (exec (.wmem (.imm 32767) (.imm 42)) (start []))) ∧
    resolve (after (exec (.wmem (.imm 32767) (.imm 42)) (start []))) (.imm 32767) = resolve (start []) (.imm 32767) :=
  ⟨by decide, eq_next_after _ (by decide), by decide⟩

theorem witness_StoredWordIsFetchedNext : (startAt 32764 []).mem.wf = true ∧
    exec (.wmem (.imm 32767) (.imm 0)) (startAt 32764 []) =
      .next (after (exec (.wmem (.imm 32767) (.imm 0)) (startAt 32764 []))) ∧
    (startAt 32764 []).pc.toNat + 3 ≤ 32767 ∧
    (resolve (startAt 32764 []) (.imm 32767)).toNat = (startAt 32764 []).pc.toNat + 3 :=
  ⟨by decide, eq_next_after _ (by decide), by decide, by decide⟩

theorem witness_OnlyWmemChangesMemory : step (start [16, 100, 42]) = .next (after (step (start [16, 100, 42]))) ∧
    ¬ SameMemory (start [16, 100, 42]) (after (step (start [16, 100, 42]))) :=
  ⟨eq_next_after _ (by decide), fun h => absurd (h 200) (by decide)⟩

theorem witness_CallPushesTheReturnAddress : ((startAt 32765 []).pc.toNat + 2 ≤ 32767 ∧
    (startAt 32765 []).build.stackCapacity ≠ some (startAt 32765 []).stack.length) ∧
    (startAt 32766 []).pc.toNat + 2 = 32768 := by decide

theorem witness_RetPopsThePointerOrHalts :
    ((start []).setStack [32767]).stack = [] ++ [32767] ∧ (start []).stack = [] := by decide

theorem witness_RetUndoesCall : (startAt 32765 []).pc.toNat + 2 ≤ 32767 ∧
    (startAt 32765 []).build.stackCapacity ≠ some (startAt 32765 []).stack.length ∧
    exec (.call (.imm 9)) (startAt 32765 []) = .next (after (exec (.call (.imm 9)) (startAt 32765 []))) :=
  ⟨by decide, by decide, eq_next_after _ (by decide)⟩

theorem witness_OutEmitsTheValue : outputAnswer (withOutput [.accepted] (start [])).ports = .accepted ∧
    outputAnswer (withOutput [.failed] (start [])).ports = .failed := by decide

theorem witness_InWritesTheByte : inputEvent (withInput [some (.byte 255)] (start [])) = some (.byte 255) ∧
    inputEvent (withInput [some .closed] (start [])) = some .closed ∧ inputEvent (withInput [none] (start [])) = none := by
  decide

theorem witness_InWaitsWithoutAnAnswer : inputEvent (withInput [none] (start [])) = none := by decide

/-- A waiting machine with the invariant, for each event of the port. -/
def waitingMachine (e : Option InputAnswer) : State :=
  withInput [e] (((startAt 32766 []).setPc 32768).setWaiting (some { dest := 7, start := 32766 }))

theorem waitingMachine_inv (e : Option InputAnswer) : (waitingMachine e).Inv := by
  refine ⟨rfl, Nat.le_refl 32768, ?_, ?_, ?_⟩
  · intro k h
    cases h
  · intro p h
    cases h
    exact ⟨rfl, Nat.le_refl 32766, rfl⟩
  · intro c a h
    cases h

theorem witness_WaitIsLeftOnlyByAnAnswer : (∀ e, (waitingMachine e).Inv) ∧
    (waitingMachine none).waiting = some { dest := 7, start := 32766 } ∧ inputEvent (waitingMachine none) = none ∧
    inputEvent (waitingMachine (some (.byte 0))) = some (.byte 0) ∧
    inputEvent (waitingMachine (some .closed)) = some .closed :=
  ⟨waitingMachine_inv, by decide, by decide, by decide, by decide⟩

theorem witness_SentinelNeverAnswersARead : (withSentinel 33 (start [])).build.sentinel = some 33 ∧
    inputRaw (withSentinel 33 (withInput [some (.byte 33)] (start []))).ports = some (.byte 33) := by decide

theorem witness_FaultsArePrecise_at_an_instruction : (startAt 2 [11, 32770, 7, 0]).status = .running ∧
    step (startAt 2 [11, 32770, 7, 0]) = .next (after (step (startAt 2 [11, 32770, 7, 0]))) ∧
    (after (step (startAt 2 [11, 32770, 7, 0]))).status = .faulted .divisionByZero 2 :=
  ⟨by decide, eq_next_after _ (by decide), by decide⟩

theorem witness_FaultsArePrecise_at_a_wait : (waitingMachine (some .closed)).status = .running ∧
    step (waitingMachine (some .closed)) = .next (after (step (waitingMachine (some .closed)))) ∧
    (after (step (waitingMachine (some .closed)))).status = .faulted .ioFailure 32766 :=
  ⟨by decide, eq_next_after _ (by decide), by decide⟩

/-- One witness for each cause that a step can raise, beside the two above: the fault is taken at address 0. -/
theorem witness_CausesAreRaisedOnlyByTheirInstructions :
    (after (step (start [3, 32768]))).status = .faulted .stackUnderflow 0 ∧
    (after (step (start [11, 32768, 0, 0]))).status = .faulted .divisionByZero 0 ∧
    (after (step (start [15, 32768, 1]))).status = .faulted .invalidValue 0 ∧
    (after (step (startAt 32766 [17, 5]))).status = .faulted .invalidValue 32766 ∧
    (after (step (withOutput [.failed] (start [19, 65])))).status = .faulted .ioFailure 0 ∧
    (after (step (withInput [some .closed] (start [20, 32768])))).status = .faulted .ioFailure 0 ∧
    (after (step (withCapacity 0 (start [2, 1])))).status = .faulted .stackOverflow 0 ∧
    (after (step (withCapacity 0 (start [17, 1])))).status = .faulted .stackOverflow 0 ∧
    (after (step (start [1, 5, 5]))).status = .faulted .typeError 0 ∧
    (after (step (start [1, 5, 40000]))).status = .faulted .typeError 0 ∧
    (after (step (start [32776]))).status = .faulted .decodeError 0 ∧
    (after (step (start [22]))).status = .faulted .unknownOpcode 0 ∧
    (after (step (startAt 32768 []))).status = .faulted .unmappedAddress 32768 := by decide

/-- The same at the edges of the ranges of R200: selector words, an operand word in the last cell, and one past it. -/
theorem witness_CausesAreRaisedOnlyByTheirInstructions_at_the_edges :
    (after (step (start [32767]))).status = .faulted .unknownOpcode 0 ∧
    (after (step (start [32768]))).status = .faulted .typeError 0 ∧
    (after (step (start [32775]))).status = .faulted .typeError 0 ∧
    (after (step (start [65535]))).status = .faulted .decodeError 0 ∧
    (after (step (startAt 32766 [2, 32776]))).status = .faulted .decodeError 32766 ∧
    (after (step (startAt 32766 [3, 32767]))).status = .faulted .typeError 32766 ∧
    (after (step (startAt 32767 [2]))).status = .faulted .unmappedAddress 32767 := by decide

theorem witness_StatusRegisterShowsTheRunStatus : (start [18]).status = .running ∧
    (after (step (start [18]))).status = .halted ∧
    (after (step (withCapacity 0 (start [2, 1])))).status = .faulted .stackOverflow 0 := by decide

theorem witness_LoadCopiesTheImageOrRefuses : ([1, 0, 0, 128] : List Byte).length % 2 = 0 ∧
    ([1, 0, 0, 128] : List Byte).length / 2 ≤ 32768 ∧ (1 < ([1, 0, 0, 128] : List Byte).length / 2) ∧
    ¬ 32767 < ([1, 0, 0, 128] : List Byte).length / 2 ∧ ([1] : List Byte).length % 2 ≠ 0 := by decide

/-- The longest good image, and one word more. -/
theorem witness_LoadCopiesTheImageOrRefuses_longest : (List.replicate 65536 (0 : Byte)).length / 2 ≤ 32768 ∧
    (List.replicate 65536 (0 : Byte)).length % 2 = 0 ∧ (List.replicate 65538 (0 : Byte)).length / 2 > 32768 := by
  simp only [List.length_replicate]
  decide

theorem witness_EndedMachineNeverChanges : (after (step (start [18]))).ended = true ∧
    (after (step (start [22]))).ended = true := by decide

theorem witness_OnlyHaltAndEmptyRetEndNormally : (start [18]).status = .running ∧
    step (start [18]) = .next (after (step (start [18]))) ∧ (after (step (start [18]))).status = .halted ∧
    (after (step (start [0]))).status = .halted :=
  ⟨by decide, eq_next_after _ (by decide), by decide, by decide⟩

theorem witness_LoadedMachineHasTheInvariant : load Build.reset Ports.reset [18, 0] =
    .next (after (load Build.reset Ports.reset [18, 0])) := eq_next_after _ (by decide)

theorem witness_StepKeepsTheInvariant : (waitingMachine (some (.byte 7))).Inv ∧
    step (waitingMachine (some (.byte 7))) = .next (after (step (waitingMachine (some (.byte 7))))) :=
  ⟨waitingMachine_inv _, eq_next_after _ (by decide)⟩

/-- One witness for each clause: `push`, `call` and `pop` that go on, and `ret` on either stack. -/
theorem witness_OnlyFourInstructionsChangeTheStack :
    (step (start [2, 7]) = .next (after (step (start [2, 7]))) ∧
      (start [2, 7]).nextInstr = some (.push (.imm 7)) ∧ (after (step (start [2, 7]))).ended = false) ∧
    ((start [17, 4]).nextInstr = some (.call (.imm 4)) ∧ (after (step (start [17, 4]))).ended = false) ∧
    (((start [3, 32768]).setStack [5]).nextInstr = some (.pop (.reg 0)) ∧
      (after (step ((start [3, 32768]).setStack [5]))).ended = false) ∧
    (((start [18]).setStack [5]).nextInstr = some .ret ∧ ((start [18]).setStack [5]).stack ≠ []) ∧
    (start [18]).nextInstr = some .ret ∧ (start [18]).stack = [] :=
  ⟨⟨eq_next_after _ (by decide), by decide, by decide⟩, by decide⟩

theorem witness_RegistersChangeOnlyAsDestinations : step (start [1, 32768, 5]) = .next (after (step (start [1, 32768, 5]))) ∧
    (after (step (start [1, 32768, 5]))).reg 0 ≠ (start [1, 32768, 5]).reg 0 ∧
    (after (step (waitingMachine (some (.byte 7))))).reg 7 ≠ (waitingMachine (some (.byte 7))).reg 7 :=
  ⟨eq_next_after _ (by decide), by decide, by decide⟩

theorem witness_OutputTraceOnlyGrows : Steps (withOutput [.accepted] (start [19, 65]))
    (after (step (withOutput [.accepted] (start [19, 65])))) :=
  .step _ _ _ (.refl _) (eq_next_after _ (by decide))

end Sys2Proof.Tests
end

section
/-! SUPPORT. R34: what a step does to the stack, and which instructions do it. -/

namespace Sys2Proof.Machine

@[simp] theorem takeFault_ended (c : Cause) (a : Word) (s : State) : (takeFault c a s).ended = true := rfl

/-- Asking the input port leaves the stack alone, whatever the port answers. -/
@[simp] theorem askInput_stack (p : PendingRead) (s : State) : (askInput p s).stack = s.stack := by
  rcases askInput_cases p s with ⟨_, _, h⟩ | ⟨_, h⟩ | ⟨_, h⟩ <;> simp [h]

theorem step_eq_exec_of_nextInstr {s : State} {i : Instr} (h : s.nextInstr = some i) : step s = exec i s := by
  obtain ⟨hs, hw, hd⟩ := (nextInstr_eq_some s i).1 h
  simp only [step, hs, stepRunning, hw, hd]

/-! ## What each of the four instructions does -/

theorem exec_push_stack {s t : State} {a : Operand} (h : exec (.push a) s = .next t) :
    (t.ended = true ∧ t.stack = s.stack) ∨ ∃ v, t.stack = s.stack ++ [v] := by
  cases h
  rcases settle_pushEffect_cases s (resolve s a) with ⟨_, he⟩ | ⟨_, he⟩
  · exact .inr ⟨resolve s a, by simp [he]⟩
  · exact .inl (by simp [he])

theorem exec_call_stack {s t : State} {a : Operand} (h : exec (.call a) s = .next t) :
    (t.ended = true ∧ t.stack = s.stack) ∨ ∃ v, t.stack = s.stack ++ [v] := by
  cases h
  rcases settle_callEffect_cases s (resolve s a) with ⟨r, _, _, he⟩ | ⟨_, he⟩ | ⟨_, _, he⟩
  · exact .inr ⟨r, by simp [he]⟩
  · exact .inl (by simp [he])
  · exact .inl (by simp [he])

theorem exec_pop_stack {s t : State} {d : Operand} (h : exec (.pop d) s = .next t) :
    (t.ended = true ∧ t.stack = s.stack) ∨ ∃ v, s.stack = t.stack ++ [v] := by
  cases h
  rcases settle_popEffect_cases s d with ⟨r, below, v, _, hs, he⟩ | ⟨_, _, he⟩ | ⟨_, _, _, he⟩
  · exact .inr ⟨v, by simp [he, hs]⟩
  · exact .inl (by simp [he])
  · exact .inl (by simp [he])

theorem exec_ret_stack {s t : State} (h : exec .ret s = .next t) :
    (s.stack = [] ∧ t.stack = []) ∨ ∃ v, s.stack = t.stack ++ [v] := by
  rcases pop?_cases s with ⟨hs, _⟩ | ⟨below, v, hs, _⟩
  · rw [exec_ret_empty s hs] at h
    cases h
    exact .inl ⟨hs, hs⟩
  · rw [exec_ret s below v hs] at h
    cases h
    exact .inr ⟨v, hs⟩

/-! ## No other instruction does -/

/-- Of the ends of an instruction, only those of `push`, `call`, `pop` and `ret` differ in the stack. -/
theorem Ends.stack_cases {i : Instr} {s t : State} (h : Ends i s t) :
    t.stack = s.stack ∨
    (((∃ a, i = .push a) ∨ ∃ a, i = .call a) ∧ ∃ v, t.stack = s.stack ++ [v]) ∨
    (((∃ d, i = .pop d) ∨ i = .ret) ∧ ∃ v, s.stack = t.stack ++ [v]) := by
  cases h with
  | pushed a hi => exact .inr (.inl ⟨.inl ⟨a, hi⟩, _, rfl⟩)
  | called a v hi => exact .inr (.inl ⟨.inr ⟨a, hi⟩, v, rfl⟩)
  | popped r below v hi hs => exact .inr (.inr ⟨.inl ⟨_, hi⟩, v, hs⟩)
  | returned below v hi hs => exact .inr (.inr ⟨.inr hi, v, hs⟩)
  | asked r hi => exact .inl (askInput_stack _ s)
  | written | jumped | passed | stored | halted | emitted | notEmitted | faulted => exact .inl rfl

theorem step_stack_cases {s t : State} (h : step s = .next t) :
    t.stack = s.stack ∨
    (((∃ a, s.nextInstr = some (.push a)) ∨ ∃ a, s.nextInstr = some (.call a)) ∧ ∃ v, t.stack = s.stack ++ [v]) ∨
    (((∃ d, s.nextInstr = some (.pop d)) ∨ s.nextInstr = some .ret) ∧ ∃ v, s.stack = t.stack ++ [v]) := by
  rcases step_next_cases s t h with ⟨_, rfl⟩ | ⟨p, _, _, rfl⟩ | ⟨c, _, _, _, rfl⟩ | ⟨i, _, _, _, hi, hends⟩
  · exact .inl rfl
  · exact .inl (askInput_stack p s)
  · exact .inl rfl
  · simpa only [hi, Option.some.injEq] using hends.stack_cases

/-- Settles O58: `step_stack_cases` says which steps change the stack, and the laws of the four instructions that they
do. -/
theorem onlyFourInstructionsChangeTheStack : Obligations.OnlyFourInstructionsChangeTheStack := by
  intro s t h
  have run : ∀ {i}, s.nextInstr = some i → exec i s = .next t := fun hi => step_eq_exec_of_nextInstr hi ▸ h
  refine ⟨step_stack_cases h, ?push_call, ?pop, ?ret, ?ret_empty⟩
  case push_call =>
    rintro (⟨a, hi⟩ | ⟨a, hi⟩) hgoes
    · exact (exec_push_stack (run hi)).resolve_left (by simp [hgoes])
    · exact (exec_call_stack (run hi)).resolve_left (by simp [hgoes])
  case pop =>
    rintro ⟨d, hi⟩ hgoes
    exact (exec_pop_stack (run hi)).resolve_left (by simp [hgoes])
  case ret =>
    intro hi hne
    exact (exec_ret_stack (run hi)).resolve_left fun ⟨he, _⟩ => hne he
  case ret_empty =>
    intro hi he
    rcases exec_ret_stack (run hi) with ⟨_, ht⟩ | ⟨v, hs⟩
    · exact ht
    · simp [he] at hs

end Sys2Proof.Machine
end

section
/-! SUPPORT. R80: the selector word of a decoded instruction, and the length that it gives. -/

namespace Sys2Proof

/-- What the decoder answers: the instruction whose selector the first word is, its operands' words behind. -/
theorem decode_cons_ok (w : Word) (ws : List Word) (i : Instr) (h : decode (w :: ws) = .ok i) :
    w.toNat = i.selector ∧ ∃ rest, ws = i.operands.map encodeOperand ++ rest := by
  simp only [decode] at h
  split at h
  · cases h
  · next sel hsel =>
    obtain ⟨rfl, hws⟩ := decodeBody_ok _ _ _ h
    exact ⟨(decodeSelector_ok w _ hsel).1.symm, hws⟩

/-- The family `Shape`, of every instruction at once. -/
theorem Laws.Shape.statement : ∀ i : Instr, Laws.Shape.Statement i
  | .halt => halt
  | .set d a => set d a
  | .push a => push a
  | .pop d => pop d
  | .eq d a b => eq d a b
  | .gt d a b => gt d a b
  | .jmp a => jmp a
  | .jt a b => jt a b
  | .jf a b => jf a b
  | .add d a b => add d a b
  | .mult d a b => mult d a b
  | .mod d a b => mod d a b
  | .and d a b => and d a b
  | .or d a b => or d a b
  | .not d a => not d a
  | .rmem d a => rmem d a
  | .wmem a b => wmem a b
  | .call a => call a
  | .ret => ret
  | .out a => out a
  | .inp d => inp d
  | .noop => noop

theorem Instr.selector_le (i : Instr) : i.selector ≤ 21 :=
  let ⟨_, hle, _⟩ := Laws.Shape.statement i
  hle

theorem Instr.length_eq_operandCount (i : Instr) : i.length = 1 + operandCount i.selector :=
  let ⟨_, _, hlen⟩ := Laws.Shape.statement i
  (encode_length i).symm.trans hlen

/-- Settles O5: the first word is the selector of the decoded instruction, and the table's facts hold of every
instruction's selector. -/
theorem lengthFollowsFromTheSelector : Obligations.LengthFollowsFromTheSelector := by
  intro w ws i h
  obtain ⟨hsel, -⟩ := decode_cons_ok w ws i h
  rw [hsel]
  exact ⟨i.selector_le, i.length_eq_operandCount⟩

end Sys2Proof
end

section
/-! SUPPORT. R72, R73: the three classes of an operand word. -/

namespace Sys2Proof.Machine

/-- Settles O4: one law of the operand decoder for each class; the number of the word, or of its register, is in the
range of its type, so that it is kept. -/
theorem operandWordsFallInThreeClasses : Obligations.OperandWordsFallInThreeClasses := by
  intro w s
  refine ⟨fun h => ⟨_, decodeOperand_immediate w h, ?immediate, resolve_imm s _⟩,
    fun h h' => ⟨_, decodeOperand_register w h h', ?register, resolve_reg s _⟩, decodeOperand_invalid w⟩
  case immediate => exact (BitVec.toNat_ofNat ..).trans (Nat.mod_eq_of_lt (by omega))
  case register => exact Nat.mod_eq_of_lt (by omega)

end Sys2Proof.Machine
end

section
/-! SUPPORT. R101: the decoder on a selector that is a value, and the frame of a state whose pointer alone is set. -/

namespace Sys2Proof.Machine

theorem decode_cons_of_immediate (w : Word) (ws : List Word) (h : w.toNat ≤ 32767) :
    decode (w :: ws) = decodeBody w.toNat ws := by
  simp only [decode, decodeSelector_immediate w h]

/-- The frame of `advance` and `jump`, which set the pointer. -/
theorem onlyPointer_setPc (s : State) (v : Word) : OnlyPointer s (s.setPc v) :=
  ⟨fun _ => rfl, fun _ => rfl, rfl, ⟨rfl, rfl⟩, ⟨rfl, rfl, rfl⟩, rfl⟩

/-- Settles O16: row 21 of the opcode map has no operand words, and `noop` is an advance by one word. -/
theorem noopOnlyMovesThePointer : Obligations.NoopOnlyMovesThePointer :=
  ⟨fun rest => decode_cons_of_immediate 21 rest (by decide),
    fun s => ⟨s.advance 1, exec_noop s, s.advance_pc 1, onlyPointer_setPc s _⟩⟩

end Sys2Proof.Machine
end

section
/-! SUPPORT. R110, R111: the words of `set` and `push`, and the frame of a register write that ends an instruction. -/

namespace Sys2Proof.Machine

theorem decode_set_words (d a : Operand) (rest : List Word) :
    decode (1 :: encodeOperand d :: encodeOperand a :: rest) = .ok (.set d a) :=
  (decode_cons_of_immediate 1 _ (by decide)).trans ((decodeDestOne_ok .set _ _).2 ⟨d, a, rest, rfl, rfl⟩)

theorem decode_push_words (a : Operand) (rest : List Word) : decode (2 :: encodeOperand a :: rest) = .ok (.push a) :=
  (decode_cons_of_immediate 2 _ (by decide)).trans ((decodeOne_ok .push _ _).2 ⟨a, rest, rfl, rfl⟩)

/-- The frame of every instruction that ends in the write of its destination. -/
theorem onlyRegister_setReg_advance (s : State) (r : RegIdx) (v : Val) (n : Nat) :
    OnlyRegister r n s ((s.setReg r v).advance n) :=
  ⟨fun q hq => s.reg_setReg_ne r q v hq, rfl, fun _ => rfl, rfl, ⟨rfl, rfl⟩, ⟨rfl, rfl, rfl⟩, rfl⟩

/-- Settles O17: `set` writes the value its operand resolves to in the state before the write. -/
theorem setWritesTheValue : Obligations.SetWritesTheValue :=
  ⟨fun d => decode_set_words (.reg d), fun s d a =>
    ⟨(s.setReg d (resolve s a)).advance 3, exec_set s d a, s.reg_setReg_self d _,
      onlyRegister_setReg_advance s d _ 3⟩⟩

/-- Settles O18: with room, `push` is the append followed by an advance by two words; neither touches another field. -/
theorem pushAppendsTheValue : Obligations.PushAppendsTheValue :=
  ⟨decode_push_words, fun s a hroom =>
    ⟨(s.setStack (s.stack ++ [resolve s a])).advance 2, exec_push_room s a hroom, rfl, State.advance_pc _ 2,
      fun _ => rfl, fun _ => rfl, ⟨rfl, rfl⟩, ⟨rfl, rfl, rfl⟩, rfl⟩⟩

end Sys2Proof.Machine
end

section
/-! SUPPORT. R120, R121: the words of `eq` and `gt`, and the number that a comparison writes. -/

namespace Sys2Proof.Machine

/-- The words of format `FRVV` behind their selector. -/
theorem decodeDestTwo_words (mk : Operand → Operand → Operand → Instr) (d a b : Operand) (rest : List Word) :
    decodeDestTwo mk (encodeOperand d :: encodeOperand a :: encodeOperand b :: rest) = .ok (mk d a b) :=
  (decodeDestTwo_ok mk _ _).2 ⟨d, a, b, rest, rfl, rfl⟩

theorem decode_eq_words (d a b : Operand) (rest : List Word) :
    decode (4 :: encodeOperand d :: encodeOperand a :: encodeOperand b :: rest) = .ok (.eq d a b) :=
  (decode_cons_of_immediate 4 _ (by decide)).trans (decodeDestTwo_words .eq d a b rest)

theorem decode_gt_words (d a b : Operand) (rest : List Word) :
    decode (5 :: encodeOperand d :: encodeOperand a :: encodeOperand b :: rest) = .ok (.gt d a b) :=
  (decode_cons_of_immediate 5 _ (by decide)).trans (decodeDestTwo_words .gt d a b rest)

theorem truthValue_toNat (p : Prop) [Decidable p] : (truthValue (decide p)).toNat = if p then 1 else 0 := by
  by_cases h : p <;> simp [truthValue, h]

/-- A comparison's destination, read back after the instruction. -/
theorem reg_setReg_truthValue_toNat (s : State) (r : RegIdx) (p : Prop) [Decidable p] (n : Nat) :
    (((s.setReg r (truthValue (decide p))).advance n).reg r).toNat = if p then 1 else 0 := by
  rw [State.reg_advance, State.reg_setReg_self, truthValue_toNat]

/-- Settles O21: the register reads back the truth value of the equality of the two operands, both resolved in the
state before the write. -/
theorem eqWritesWhetherEqual : Obligations.EqWritesWhetherEqual := by
  refine ⟨fun d => decode_eq_words (.reg d), fun s d a b => ⟨_, exec_eq s d a b, ?equal, ?different,
    onlyRegister_setReg_advance s d _ 4⟩⟩
  case equal => exact fun h => (reg_setReg_truthValue_toNat s d _ 4).trans (if_pos h)
  case different => exact fun h => (reg_setReg_truthValue_toNat s d _ 4).trans (if_neg h)

/-- Settles O22: the register reads back the truth value of the order of the two operands as numbers, both resolved in
the state before the write. -/
theorem gtWritesWhetherGreater : Obligations.GtWritesWhetherGreater := by
  refine ⟨fun d => decode_gt_words (.reg d), fun s d a b => ⟨_, exec_gt s d a b, ?greater, ?notGreater,
    onlyRegister_setReg_advance s d _ 4⟩⟩
  case greater => exact fun h => (reg_setReg_truthValue_toNat s d _ 4).trans (if_pos h)
  case notGreater => exact fun h => (reg_setReg_truthValue_toNat s d _ 4).trans (if_neg (Nat.not_lt.2 h))

end Sys2Proof.Machine
end

section
/-! SUPPORT. R130 to R132: the words of the jumps, and where a jump sets the pointer. -/

namespace Sys2Proof.Machine

/-- The words of format `FVV` behind their selector. -/
theorem decodeTwo_words (mk : Operand → Operand → Instr) (a b : Operand) (rest : List Word) :
    decodeTwo mk (encodeOperand a :: encodeOperand b :: rest) = .ok (mk a b) :=
  (decodeTwo_ok mk _ _).2 ⟨a, b, rest, rfl, rfl⟩

theorem decode_jmp_words (a : Operand) (rest : List Word) : decode (6 :: encodeOperand a :: rest) = .ok (.jmp a) :=
  (decode_cons_of_immediate 6 _ (by decide)).trans ((decodeOne_ok .jmp _ _).2 ⟨a, rest, rfl, rfl⟩)

theorem decode_jt_words (a b : Operand) (rest : List Word) :
    decode (7 :: encodeOperand a :: encodeOperand b :: rest) = .ok (.jt a b) :=
  (decode_cons_of_immediate 7 _ (by decide)).trans (decodeTwo_words .jt a b rest)

theorem decode_jf_words (a b : Operand) (rest : List Word) :
    decode (8 :: encodeOperand a :: encodeOperand b :: rest) = .ok (.jf a b) :=
  (decode_cons_of_immediate 8 _ (by decide)).trans (decodeTwo_words .jf a b rest)

/-- The target is a value of 15 bits, so the pointer holds it whole. -/
theorem jump_pc_toNat (s : State) (v : Val) : (s.jump v).pc.toNat = v.toNat :=
  (congrArg BitVec.toNat (s.jump_pc v)).trans (wordOfVal_toNat v)

/-- Settles O23: `jmp` is a jump to the value its operand resolves to. -/
theorem jmpSetsThePointer : Obligations.JmpSetsThePointer :=
  ⟨decode_jmp_words, fun s a =>
    ⟨s.jump (resolve s a), exec_jmp s a, jump_pc_toNat s _, onlyPointer_setPc s _⟩⟩

/-- Settles O24: on a first operand of 0 `jt` is an advance by its three words, on any other a jump to the second. -/
theorem jtJumpsOnNonzero : Obligations.JtJumpsOnNonzero := by
  refine ⟨decode_jt_words, fun s a b => ?_⟩
  by_cases h : (resolve s a).toNat = 0
  · exact ⟨s.advance 3, exec_jt_not_taken s a b h, fun hne => absurd h hne, fun _ => s.advance_pc 3,
      onlyPointer_setPc s _⟩
  · exact ⟨s.jump (resolve s b), exec_jt_taken s a b h, fun _ => jump_pc_toNat s _, fun hz => absurd hz h,
      onlyPointer_setPc s _⟩

/-- Settles O25: on a first operand of 0 `jf` is a jump to the second, on any other an advance by its three words. -/
theorem jfJumpsOnZero : Obligations.JfJumpsOnZero := by
  refine ⟨decode_jf_words, fun s a b => ?_⟩
  by_cases h : (resolve s a).toNat = 0
  · exact ⟨s.jump (resolve s b), exec_jf_taken s a b h, fun _ => jump_pc_toNat s _, fun hne => absurd h hne,
      onlyPointer_setPc s _⟩
  · exact ⟨s.advance 3, exec_jf_not_taken s a b h, fun hz => absurd hz h, fun _ => s.advance_pc 3,
      onlyPointer_setPc s _⟩

end Sys2Proof.Machine
end

section
/-! SUPPORT. R141, R142: the ring operations are those of 15-bit vectors, and the remainder as a number. -/

namespace Sys2Proof.Machine

theorem ringAdd_toNat (a b : Val) : (ringAdd a b).toNat = (a.toNat + b.toNat) % 32768 :=
  (BitVec.toNat_ofNat ..).trans (Nat.mod_mod ..)

theorem ringMult_toNat (a b : Val) : (ringMult a b).toNat = a.toNat * b.toNat % 32768 :=
  (BitVec.toNat_ofNat ..).trans (Nat.mod_mod ..)

theorem ringAdd_eq_add (a b : Val) : ringAdd a b = a + b :=
  BitVec.eq_of_toNat_eq ((ringAdd_toNat a b).trans (BitVec.toNat_add a b).symm)

theorem ringMult_eq_mul (a b : Val) : ringMult a b = a * b :=
  BitVec.eq_of_toNat_eq ((ringMult_toNat a b).trans (BitVec.toNat_mul a b).symm)

/-- Settles O32: the two operations are those of 15-bit vectors, whose laws the library has. -/
theorem ringLawsHold : Obligations.RingLawsHold := by
  refine ⟨ringAdd_toNat, ringMult_toNat, ?_⟩
  simp only [ringAdd_eq_add, ringMult_eq_mul]
  exact ⟨BitVec.add_comm, BitVec.mul_comm, BitVec.add_assoc, BitVec.mul_assoc⟩

theorem ringMod_nonzero (a b : Val) (h : b.toNat ≠ 0) : ringMod a b = .ok (BitVec.ofNat 15 (a.toNat % b.toNat)) :=
  if_neg h

theorem ringMod_zero (a b : Val) (h : b.toNat = 0) : ringMod a b = .error .divisionByZero := if_pos h

/-- A remainder does not exceed the value it is taken of, so 15 bits hold it whole. -/
theorem remainder_toNat (a b : Val) : (BitVec.ofNat 15 (a.toNat % b.toNat)).toNat = a.toNat % b.toNat :=
  (BitVec.toNat_ofNat ..).trans (Nat.mod_eq_of_lt ((Nat.mod_le ..).trans_lt a.isLt))

/-- Settles O33: the result is the remainder of the division of natural numbers, and its quotient is the witness. -/
theorem remainderIsTheUniqueOne : Obligations.RemainderIsTheUniqueOne := by
  refine ⟨fun a b hb => ⟨_, ringMod_nonzero a b hb, ?_⟩, ringMod_zero⟩
  rw [remainder_toNat]
  refine ⟨Nat.mod_lt _ (Nat.pos_of_ne_zero hb), Nat.mod_le .., ⟨a.toNat / b.toNat, (Nat.div_add_mod' ..).symm⟩, ?unique⟩
  case unique =>
    rintro x hx ⟨q, hq⟩
    rw [hq, Nat.mul_add_mod_of_lt hx]

end Sys2Proof.Machine
end

section
/-! SUPPORT. R145 to R150: the words of the ALU instructions, and the number that each writes to its destination. -/

namespace Sys2Proof.Machine

/-- The words of an instruction whose row of the opcode map has format `FRVV`. -/
theorem decode_words_of_decodeDestTwo (w : Word) (mk : Operand → Operand → Operand → Instr) (h : w.toNat ≤ 32767)
    (hrow : ∀ ws, decodeBody w.toNat ws = decodeDestTwo mk ws) (d a b : Operand) (rest : List Word) :
    decode (w :: encodeOperand d :: encodeOperand a :: encodeOperand b :: rest) = .ok (mk d a b) := by
  rw [decode_cons_of_immediate w _ h, hrow, decodeDestTwo_words]

theorem decode_not_words (d a : Operand) (rest : List Word) :
    decode (14 :: encodeOperand d :: encodeOperand a :: rest) = .ok (.not d a) :=
  (decode_cons_of_immediate 14 _ (by decide)).trans ((decodeDestOne_ok .not _ _).2 ⟨d, a, rest, rfl, rfl⟩)

/-- An instruction that ends in the write of a value leaves the value's number in its destination, and the frame of a
register write. -/
theorem exec_writes_toNat {i : Instr} {s : State} {r : RegIdx} {v : Val} {n m : Nat}
    (he : exec i s = .next ((s.setReg r v).advance n)) (hv : v.toNat = m) :
    ∃ t, exec i s = .next t ∧ (t.reg r).toNat = m ∧ OnlyRegister r n s t :=
  ⟨_, he, by rw [State.reg_advance, State.reg_setReg_self, hv], onlyRegister_setReg_advance s r v n⟩

theorem ringAnd_toNat (a b : Val) : (ringAnd a b).toNat = (a.toNat &&& b.toNat) &&& 0x7FFF := by
  simp only [ringAnd, BitVec.toNat_and, BitVec.toNat_ofNat, Nat.reducePow, Nat.reduceMod]

theorem ringOr_toNat (a b : Val) : (ringOr a b).toNat = (a.toNat ||| b.toNat) &&& 0x7FFF := by
  simp only [ringOr, BitVec.toNat_and, BitVec.toNat_or, BitVec.toNat_ofNat, Nat.reducePow, Nat.reduceMod]

theorem ringNot_toNat (a : Val) : (ringNot a).toNat = a.toNat ^^^ 0x7FFF := by
  simp only [ringNot, BitVec.toNat_xor, BitVec.toNat_ofNat, Nat.reducePow, Nat.reduceMod]

/-- Settles O26: the value written is the ring sum of the operands, both resolved in the state before the write. -/
theorem addWritesTheSumModulo32768 : Obligations.AddWritesTheSumModulo32768 :=
  ⟨fun d => decode_words_of_decodeDestTwo 9 .add (by decide) (fun _ => rfl) (.reg d),
    fun s d a b => exec_writes_toNat (exec_add s d a b) (ringAdd_toNat _ _)⟩

/-- Settles O27: the value written is the ring product of the operands, both resolved in the state before the write. -/
theorem multWritesTheProductModulo32768 : Obligations.MultWritesTheProductModulo32768 :=
  ⟨fun d => decode_words_of_decodeDestTwo 10 .mult (by decide) (fun _ => rfl) (.reg d),
    fun s d a b => exec_writes_toNat (exec_mult s d a b) (ringMult_toNat _ _)⟩

/-- Settles O29: the value written is the masked conjunction of the operands, both resolved in the state before the
write. -/
theorem andWritesTheConjunction : Obligations.AndWritesTheConjunction :=
  ⟨fun d => decode_words_of_decodeDestTwo 12 .and (by decide) (fun _ => rfl) (.reg d),
    fun s d a b => exec_writes_toNat (exec_and s d a b) (ringAnd_toNat _ _)⟩

/-- Settles O30: the value written is the masked disjunction of the operands, both resolved in the state before the
write. -/
theorem orWritesTheDisjunction : Obligations.OrWritesTheDisjunction :=
  ⟨fun d => decode_words_of_decodeDestTwo 13 .or (by decide) (fun _ => rfl) (.reg d),
    fun s d a b => exec_writes_toNat (exec_or s d a b) (ringOr_toNat _ _)⟩

/-- Settles O31: the value written is the 15-bit complement of the operand, resolved in the state before the write. -/
theorem notWritesTheComplement : Obligations.NotWritesTheComplement :=
  ⟨fun d => decode_not_words (.reg d),
    fun s d a => exec_writes_toNat (exec_not s d a) (ringNot_toNat _)⟩

end Sys2Proof.Machine
end

section
/-! SUPPORT. R161: the words of `wmem`, and the number that its store leaves in memory. -/

namespace Sys2Proof.Machine

theorem decode_wmem_words (a b : Operand) (rest : List Word) :
    decode (16 :: encodeOperand a :: encodeOperand b :: rest) = .ok (.wmem a b) :=
  (decode_cons_of_immediate 16 _ (by decide)).trans (decodeTwo_words .wmem a b rest)

/-- A stored value reads back as the word of the same number: a word holds a value's 15 bits whole. -/
theorem memWrite_value_wordAt_toNat (m : Memory) (a v : Val) (h : m.wf = true) :
    ((memWrite m a (BitVec.ofNat 16 v.toNat)).wordAt a.toNat).toNat = v.toNat :=
  (congrArg BitVec.toNat (memWrite_wordAt_self m a _ h)).trans (wordOfVal_toNat v)

/-- Settles O36: `wmem` is the write of one word followed by an advance by three words; neither touches another
field. -/
theorem wmemStoresTheValue : Obligations.WmemStoresTheValue := by
  refine ⟨decode_wmem_words, fun s a b => ⟨_, exec_wmem s a b, ?readBack, ?otherBytes, State.advance_pc _ 3,
    fun _ => rfl, rfl, ⟨rfl, rfl⟩, ⟨rfl, rfl, rfl⟩, rfl⟩⟩
  case readBack => exact memWrite_value_wordAt_toNat s.mem (resolve s a) (resolve s b)
  case otherBytes => exact memWrite_byteAt_ne s.mem (resolve s a) _

end Sys2Proof.Machine
end

section
/-! SUPPORT. R171: the word of `ret`. -/

namespace Sys2Proof.Machine

theorem decode_ret_words (rest : List Word) : decode (18 :: rest) = .ok .ret :=
  decode_cons_of_immediate 18 rest (by decide)

/-- Settles O41: `ret` is a pop followed by a jump to the popped value; with nothing to pop it is an advance by one word
followed by the halt. -/
theorem retPopsThePointerOrHalts : Obligations.RetPopsThePointerOrHalts := by
  refine ⟨decode_ret_words, ?popped, ?emptyStack⟩
  case popped =>
    intro s v below h
    exact ⟨(s.setStack below).jump v, exec_ret s below v h, jump_pc_toNat _ v, rfl,
      fun _ => rfl, fun _ => rfl, ⟨rfl, rfl⟩, ⟨rfl, rfl, rfl⟩, rfl⟩
  case emptyStack =>
    intro s h
    exact ⟨(s.advance 1).halt, exec_ret_empty s h, State.halt_status _, s.advance_pc 1, h, rfl,
      fun _ => rfl, fun _ => rfl, ⟨rfl, rfl, rfl⟩, rfl⟩

end Sys2Proof.Machine
end

section
/-! SUPPORT. R240, R241: when a load succeeds, and the words of memory that an image gives. -/

namespace Sys2Proof.Machine

/-! ## The words of an image -/

/-- The two bytes of a word fill its 16 bits, so the word's number is theirs (R54). -/
theorem Memory.wordAt_toNat (m : Memory) (a : Nat) :
    (m.wordAt a).toNat = (m.byteAt (2 * a)).toNat + 256 * (m.byteAt (2 * a + 1)).toNat := by
  have hlow := (m.byteAt (2 * a)).isLt
  have hhigh := (m.byteAt (2 * a + 1)).isLt
  exact (BitVec.toNat_ofNat ..).trans (Nat.mod_eq_of_lt (by omega))

theorem Memory.byteAt_ofBytes_zero (bs : List Byte) (x : Nat) : (Memory.ofBytes 0 bs).byteAt x = bs.getD x 0 :=
  (Memory.byteAt_ofBytes 0 bs x).trans (if_pos (Nat.zero_le x))

/-- The word of an image of whole words at a word address, 0 past its end. -/
theorem Memory.wordAt_ofBytes_toNat (image : List Byte) (heven : image.length % 2 = 0) (i : Nat) :
    ((Memory.ofBytes 0 image).wordAt i).toNat =
      if i < image.length / 2 then (image.getD (2 * i) 0).toNat + 256 * (image.getD (2 * i + 1) 0).toNat else 0 := by
  rw [Memory.wordAt_toNat, Memory.byteAt_ofBytes_zero, Memory.byteAt_ofBytes_zero]
  split
  · rfl
  · next hpast =>
    rw [List.getD_eq_default _ _ (by omega), List.getD_eq_default _ _ (by omega)]
    rfl

/-! ## The answers of `load` -/

theorem load_of_fits (build : Build) (ports : Ports) (image : List Byte) (heven : image.length % 2 = 0)
    (hfits : image.length / 2 ≤ 32768) : load build ports image =
      .next { State.reset with mem := Memory.ofBytes 0 image, build := build, ports := ports } :=
  (if_neg (not_not_intro heven)).trans (if_neg (Nat.not_lt.2 hfits))

theorem load_of_odd (build : Build) (ports : Ports) (image : List Byte) (hodd : image.length % 2 ≠ 0) :
    load build ports image = .refused .imageOddLength := if_pos hodd

theorem load_of_tooLong (build : Build) (ports : Ports) (image : List Byte) (heven : image.length % 2 = 0)
    (hlong : image.length / 2 > 32768) : load build ports image = .refused .imageTooLong :=
  (if_neg (not_not_intro heven)).trans (if_pos hlong)

theorem State.reset_reg (r : RegIdx) : State.reset.reg r = 0 := Vector.getElem_replicate r.isLt

/-- Settles O52: a load that fits is the reset state with the image's bytes for memory, and an image of half a word or
of too many words meets one of the two refusals. -/
theorem loadCopiesTheImageOrRefuses : Obligations.LoadCopiesTheImageOrRefuses := by
  refine ⟨fun build ports image heven hfits => ⟨_, load_of_fits build ports image heven hfits, ?words, ?registers,
    rfl, rfl, rfl, rfl, rfl, rfl, rfl, rfl, rfl, rfl⟩, fun build ports image hbad => ?refused⟩
  case words => exact fun i _ => Memory.wordAt_ofBytes_toNat image heven i
  case registers => exact fun r => congrArg BitVec.toNat (State.reset_reg r)
  case refused =>
    by_cases heven : image.length % 2 = 0
    · exact ⟨_, load_of_tooLong build ports image heven (hbad.resolve_left (not_not_intro heven))⟩
    · exact ⟨_, load_of_odd build ports image heven⟩

end Sys2Proof.Machine
end

section
/-! SUPPORT. R78: the opcode map takes every instruction back from its own words. -/

namespace Sys2Proof

theorem decodeOne_words (mk : Operand → Instr) (a : Operand) (rest : List Word) :
    decodeOne mk (encodeOperand a :: rest) = .ok (mk a) := (decodeOne_ok mk _ _).2 ⟨a, rest, rfl, rfl⟩

theorem decodeDestOne_words (mk : Operand → Operand → Instr) (d a : Operand) (rest : List Word) :
    decodeDestOne mk (encodeOperand d :: encodeOperand a :: rest) = .ok (mk d a) :=
  (decodeDestOne_ok mk _ _).2 ⟨d, a, rest, rfl, rfl⟩

/-- Each row of the opcode map, read backwards. -/
theorem decodeBody_selector_operands (i : Instr) (rest : List Word) :
    decodeBody i.selector (i.operands.map encodeOperand ++ rest) = .ok i := by
  cases i with
  | halt | ret | noop => rfl
  | push a | jmp a | call a | out a => exact decodeOne_words _ a rest
  | pop d | inp d => exact decodeOne_words _ d rest
  | jt a b | jf a b | wmem a b => exact Machine.decodeTwo_words _ a b rest
  | set d a | not d a | rmem d a => exact decodeDestOne_words _ d a rest
  | eq d a b | gt d a b | add d a b | mult d a b | mod d a b | and d a b | or d a b =>
    exact Machine.decodeDestTwo_words _ d a b rest

theorem Instr.selectorWord_toNat (i : Instr) : (BitVec.ofNat 16 i.selector : Word).toNat = i.selector :=
  (BitVec.toNat_ofNat ..).trans (Nat.mod_eq_of_lt (by have := i.selector_le; omega))

/-- Settles O2: the selector word is a value, and its row of the opcode map takes the operands back. -/
theorem decodeOfEncodeGivesTheInstruction : Obligations.DecodeOfEncodeGivesTheInstruction := by
  intro i rest
  have hsel := i.selectorWord_toNat
  have hle := i.selector_le
  calc decode (encode i ++ rest)
    _ = decodeBody i.selector (i.operands.map encodeOperand ++ rest) := by
      rw [encode, List.cons_append, Machine.decode_cons_of_immediate _ _ (by omega), hsel]
    _ = .ok i := decodeBody_selector_operands i rest

/-- Settles O3: the first word is the selector of the decoded instruction, and the words of its operands follow. -/
theorem decodedWordsBeginWithTheEncoding : Obligations.DecodedWordsBeginWithTheEncoding := by
  intro ws i h
  cases ws with
  | nil => cases h
  | cons w ws =>
    obtain ⟨hsel, rest, rfl⟩ := decode_cons_ok w ws i h
    have hw : w = BitVec.ofNat 16 i.selector := BitVec.eq_of_toNat_eq (hsel.trans i.selectorWord_toNat.symm)
    exact ⟨rest, by rw [encode, hw, List.cons_append]⟩

end Sys2Proof
end

section
/-! SUPPORT. The step of a running machine that waits for nothing, from what its fetched words decode to (R81, R83). -/

namespace Sys2Proof.Machine

/-- Settles O6: the instruction that the words decode to is the one that `nextInstr` names. -/
theorem stepRunsTheDecodedInstruction : Obligations.StepRunsTheDecodedInstruction :=
  fun s i hrun hwait hdec => step_eq_exec_of_nextInstr ((nextInstr_eq_some s i).2 ⟨hrun, hwait, hdec⟩)

theorem step_of_decode_error {s : State} {c : Cause} (hrun : s.status = .running) (hwait : s.waiting = none)
    (hdec : decode (fetchWords s) = .error c) : step s = .next (takeFault c s.pc s) := by
  simp only [step, hrun, stepRunning, hwait, hdec]

theorem nextInstr_eq_none_of_decode_error {s : State} {c : Cause} (hdec : decode (fetchWords s) = .error c) :
    s.nextInstr = none := by
  rw [Option.eq_none_iff_forall_ne_some]
  intro i hi
  obtain ⟨_, _, hok⟩ := (nextInstr_eq_some s i).1 hi
  exact nomatch hdec.symm.trans hok

/-- The instruction that a step runs ends in one of the ways listed. -/
theorem ends_of_nextInstr {s t : State} {i : Instr} (hi : s.nextInstr = some i) (h : step s = .next t) :
    Ends i s t := by
  obtain ⟨t', he, hends⟩ := exec_ends i s
  rw [step_eq_exec_of_nextInstr hi, he] at h
  cases h
  exact hends

/-- Settles O14: the cases of `step`, of which only the last is not a next state by its own form, and every instruction
ends. -/
theorem everyStepAnswersAState : Obligations.EveryStepAnswersAState := by
  intro s
  rcases step_cases s with ⟨_, h⟩ | ⟨p, _, _, h⟩ | ⟨c, _, _, _, h⟩ | ⟨i, _, _, _, _, h⟩
  · exact ⟨_, h⟩
  · exact ⟨_, h⟩
  · exact ⟨_, h⟩
  · obtain ⟨t, he, _⟩ := exec_ends i s
    exact ⟨t, h.trans he⟩

/-- Settles O7: the fetch finds the encoding, which decodes whatever words follow it. -/
theorem stepRunsTheInstructionInMemory : Obligations.StepRunsTheInstructionInMemory := by
  intro s i hrun hwait hholds
  obtain ⟨rest, hfetch⟩ := fetchWords_of_holds s i hholds
  exact stepRunsTheDecodedInstruction s i hrun hwait (hfetch ▸ decodeOfEncodeGivesTheInstruction i rest)

theorem decode_of_decodeTableWord {nbits w : Nat} {i : Instr} (h : decodeTableWord nbits w = some i) :
    decode (tableWords nbits w) = .ok i := by
  unfold decodeTableWord at h
  rw [decodeBytes, wordsOfBytes_bytesOfWords] at h
  split at h
  · next hdec => exact hdec.trans (congrArg Except.ok (Option.some.inj h))
  · cases h

/-- The four placed words are what the next step fetches, where they fit. -/
theorem fetchWords_withFetchWord (s : State) (nbits w : Nat) (hmem : s.mem.wf = true) (hpc : s.pc.toNat ≤ 32764) :
    fetchWords (s.withFetchWord nbits w) = tableWords nbits w := by
  have hlen : (tableWords nbits w).length = 4 := rfl
  have hwords : ∀ k, (hk : k < (tableWords nbits w).length) →
      (s.withFetchWord nbits w).mem.wordAt (s.pc.toNat + k) = (tableWords nbits w)[k] :=
    fun k hk => Memory.wordAt_setWords s.mem _ _ hmem k hk (by omega)
  exact fetchFrom_of_wordAt _ _ 4 _ (by omega) (by omega) hwords

/-- Settles O8: placing makes the machine run, and its fetch finds the placed words. -/
theorem placedTableWordRuns : Obligations.PlacedTableWordRuns := by
  intro s nbits w i hmem hpc hdec
  refine stepRunsTheDecodedInstruction _ i rfl rfl ?_
  rw [fetchWords_withFetchWord s nbits w hmem hpc, decode_of_decodeTableWord hdec]

end Sys2Proof.Machine
end

section
/-! SUPPORT. R210: the faults a step can take, as one case list, and that each is precise and ends the run. -/

namespace Sys2Proof.Machine

/-- Settles O53: a step of an ended machine answers the state itself, so every number of them does. -/
theorem endedMachineNeverChanges : Obligations.EndedMachineNeverChanges := by
  intro s k hended
  have hstep : Sys2Proof.core.step s = .next s := step_ended s hended
  induction k with
  | zero => rfl
  | succ k ih => simp only [Host.Core.run, hstep, ih]

/-- How a step of a running machine takes a fault: its cause, and the state it is taken in. -/
inductive StepFaults (s : State) : Cause → State → Prop where
  /-- The fetch or the decoder fails. -/
  | fetched (c : Cause) : s.waiting = none → decode (fetchWords s) = .error c → StepFaults s c (takeFault c s.start s)
  /-- A check of the instruction fails as it executes. -/
  | raised (i : Instr) (c : Cause) : s.nextInstr = some i → Raises i s c → StepFaults s c (takeFault c s.start s)
  /-- The output port fails. -/
  | notEmitted (a : Operand) : s.nextInstr = some (.out a) → outputAnswer s.ports = .failed →
      StepFaults s .ioFailure (takeFault .ioFailure s.start (s.setPorts (afterEmit s.ports)))
  /-- The input port is closed, for an `in` just fetched or for one that waits. -/
  | closed : ((∃ d, s.nextInstr = some (.inp d)) ∨ s.waiting ≠ none) → inputEvent s = some .closed →
      StepFaults s .ioFailure (takeFault .ioFailure s.start
        ((s.setPorts (afterRead s.ports)).setInTrace (s.inTrace ++ [.closed])))

theorem State.start_of_wait {s : State} {p : PendingRead} (h : s.waiting = some p) : s.start = p.start := by
  simp only [State.start, h]

theorem State.start_of_not_wait {s : State} (h : s.waiting = none) : s.start = s.pc := by
  simp only [State.start, h]

/-- Of the answers of the input port only `Closed` changes the status. -/
theorem askInput_status_cases (p : PendingRead) (s : State) :
    (askInput p s).status = s.status ∨
    (inputEvent s = some .closed ∧ askInput p s =
      takeFault .ioFailure p.start ((s.setPorts (afterRead s.ports)).setInTrace (s.inTrace ++ [.closed]))) := by
  rcases askInput_cases p s with ⟨b, _, h⟩ | h | ⟨_, h⟩
  · exact .inl (by rw [h]; rfl)
  · exact .inr h
  · exact .inl (by rw [h]; rfl)

theorem Ends.stepFaults {s t : State} {i : Instr} {c : Cause} {a : Word} (hrun : s.status = .running)
    (hwait : s.waiting = none) (hi : s.nextInstr = some i) (h : Ends i s t) (ht : t.status = .faulted c a) :
    StepFaults s c t := by
  have hstart := State.start_of_not_wait hwait
  have running : t.status = s.status → StepFaults s c t := fun he => nomatch ht.symm.trans (he.trans hrun)
  cases h with
  | written | popped | pushed | called | returned | jumped | passed | stored | emitted => exact running rfl
  | halted => cases ht
  | notEmitted x hx hfail =>
    cases ht
    exact hstart ▸ .notEmitted x (hx ▸ hi) hfail
  | asked r hr =>
    rcases askInput_status_cases ⟨r, s.pc⟩ s with he | ⟨hev, he⟩
    · exact running he
    · rw [he] at ht ⊢
      cases ht
      exact hstart ▸ .closed (.inl ⟨_, hr ▸ hi⟩) hev
  | faulted c' hc =>
    cases ht
    exact hstart ▸ .raised i c hi hc

theorem step_faults {s t : State} {c : Cause} {a : Word} (hrun : s.status = .running) (h : step s = .next t)
    (ht : t.status = .faulted c a) : StepFaults s c t := by
  rcases step_next_cases s t h with ⟨_, rfl⟩ | ⟨p, _, hp, rfl⟩ | ⟨c', _, hw, hd, rfl⟩ | ⟨i, _, hw, _, hi, hends⟩
  · exact nomatch ht.symm.trans hrun
  · rcases askInput_status_cases p s with he | ⟨hev, he⟩
    · exact nomatch ht.symm.trans (he.trans hrun)
    · rw [he] at ht ⊢
      cases ht
      exact State.start_of_wait hp ▸ .closed (.inr (by simp [hp])) hev
  · cases ht
    exact State.start_of_not_wait hw ▸ .fetched c hw hd
  · exact hends.stepFaults hrun hw hi ht

theorem StepFaults.faultTaken {s t : State} {c : Cause} (h : StepFaults s c t) : FaultTaken c s.start s t := by
  cases h <;> exact ⟨rfl, rfl, rfl, fun _ => rfl, fun _ => rfl, rfl, rfl, rfl⟩

/-- Settles O48: every fault of a step is taken at its start, from the state itself but for the ports and the input
consumed; and a machine that has faulted has ended. -/
theorem faultsArePrecise : Obligations.FaultsArePrecise := by
  intro s t c a hrun h ht
  have hfault := (step_faults hrun h ht).faultTaken
  have haddr : a = s.start := by
    obtain ⟨hstatus, _⟩ := hfault
    cases ht.symm.trans hstatus
    rfl
  exact ⟨hfault, haddr, fun k => endedMachineNeverChanges t k (by simp [State.ended, ht])⟩

end Sys2Proof.Machine
end

section
/-! SUPPORT. R200: the condition of each cause, read off the faults a step can take. -/

namespace Sys2Proof.Machine

/-- The fetch and the decoder raise only four of the causes (R79, R82). -/
theorem decode_fetchWords_error_cause {s : State} {c : Cause} (h : decode (fetchWords s) = .error c) :
    c ∈ [.unmappedAddress, .decodeError, .typeError, .unknownOpcode] := by
  rcases decode_fetchWords_error s c h with ⟨rfl, _⟩ | ⟨rfl, _⟩ | ⟨rfl, _⟩ | ⟨rfl, _⟩ <;> decide

section PerCause

variable {s t : State}

theorem StepFaults.decodeError (h : StepFaults s .decodeError t) : s.waiting = none ∧ s.nextInstr = none ∧
    ∃ k, s.AsksForWord k ∧ s.pc.toNat + k ≤ 32767 ∧ 32776 ≤ (s.instrWord k).toNat := by
  cases h with
  | fetched _ hw hd =>
    have hwhy := decode_fetchWords_error s _ hd
    exact ⟨hw, nextInstr_eq_none_of_decode_error hd, by simpa using hwhy⟩
  | raised _ _ _ hr => cases hr

theorem StepFaults.typeError (h : StepFaults s .typeError t) : s.waiting = none ∧ s.pc.toNat ≤ 32767 ∧
    ((32768 ≤ (s.instrWord 0).toNat ∧ (s.instrWord 0).toNat ≤ 32775) ∨
     ((s.instrWord 0).toNat ≤ 21 ∧ hasDestination (s.instrWord 0).toNat = true ∧ s.pc.toNat + 1 ≤ 32767 ∧
      (s.instrWord 1).toNat ≤ 32767)) ∧
    (s.nextInstr = none ∨ ∃ i, s.nextInstr = some i ∧ i.wf = false) := by
  cases h with
  | fetched _ hw hd =>
    have hwhy := decode_fetchWords_error s _ hd
    simp only [reduceCtorEq, false_and, true_and, false_or, or_false] at hwhy
    obtain ⟨hp, hwords⟩ := hwhy
    exact ⟨hw, hp, hwords, .inl (nextInstr_eq_none_of_decode_error hd)⟩
  | raised i _ hi hr =>
    cases hr with
    | immediateDestination hwf =>
      obtain ⟨_, hw, hd⟩ := (nextInstr_eq_some s i).1 hi
      obtain ⟨hp, hwords⟩ := words_of_immediate_destination s i hd hwf
      exact ⟨hw, hp, .inr hwords, .inr ⟨i, hi, hwf⟩⟩

theorem StepFaults.unknownOpcode (h : StepFaults s .unknownOpcode t) : s.waiting = none ∧ s.nextInstr = none ∧
    s.pc.toNat ≤ 32767 ∧ 22 ≤ (s.instrWord 0).toNat ∧ (s.instrWord 0).toNat ≤ 32767 := by
  cases h with
  | fetched _ hw hd =>
    have hwhy := decode_fetchWords_error s _ hd
    exact ⟨hw, nextInstr_eq_none_of_decode_error hd, by simpa using hwhy⟩
  | raised _ _ _ hr => cases hr

theorem StepFaults.stackUnderflow (h : StepFaults s .stackUnderflow t) :
    ∃ d, s.nextInstr = some (.pop d) ∧ s.stack = [] := by
  cases h with
  | fetched _ _ hd => exact absurd (decode_fetchWords_error_cause hd) (by decide)
  | raised i _ hi hr =>
    cases hr with
    | emptyStack d he hempty => exact ⟨d, he ▸ hi, hempty⟩

theorem StepFaults.unmappedAddress (h : StepFaults s .unmappedAddress t) : s.waiting = none ∧ s.nextInstr = none ∧
    ((∃ k, s.AsksForWord k ∧ s.pc.toNat + k = 32768) ∨ 32768 < s.pc.toNat) := by
  cases h with
  | fetched _ hw hd =>
    have hwhy := decode_fetchWords_error s _ hd
    exact ⟨hw, nextInstr_eq_none_of_decode_error hd, by simpa using hwhy⟩
  | raised _ _ _ hr => cases hr

theorem StepFaults.invalidValue (h : StepFaults s .invalidValue t) :
    (∃ d x, s.nextInstr = some (.rmem d x) ∧ (s.mem.wordAt (resolve s x).toNat).toNat > 32767) ∨
    (∃ x, s.nextInstr = some (.call x) ∧ (s.pc + 2).toNat > 32767) := by
  cases h with
  | fetched _ _ hd => exact absurd (decode_fetchWords_error_cause hd) (by decide)
  | raised i _ hi hr =>
    cases hr with
    | wordTooLarge d a he hlarge => exact .inl ⟨d, a, he ▸ hi, hlarge⟩
    | returnAddress a he hpast => exact .inr ⟨a, he ▸ hi, hpast⟩

theorem StepFaults.divisionByZero (h : StepFaults s .divisionByZero t) :
    ∃ d x y, s.nextInstr = some (.mod d x y) ∧ (resolve s y).toNat = 0 := by
  cases h with
  | fetched _ _ hd => exact absurd (decode_fetchWords_error_cause hd) (by decide)
  | raised i _ hi hr =>
    cases hr with
    | zeroDivisor d a b he hzero => exact ⟨d, a, b, he ▸ hi, hzero⟩

theorem not_stepFaults_invalidScalarValue : ¬ StepFaults s .invalidScalarValue t := by
  intro h
  cases h with
  | fetched _ _ hd => exact absurd (decode_fetchWords_error_cause hd) (by decide)
  | raised _ _ _ hr => cases hr

theorem StepFaults.ioFailure (h : StepFaults s .ioFailure t) :
    ((∃ x, s.nextInstr = some (.out x)) ∧ outputAnswer s.ports = .failed) ∨
    (((∃ d, s.nextInstr = some (.inp d)) ∨ s.waiting ≠ none) ∧ inputEvent s = some .closed) := by
  cases h with
  | fetched _ _ hd => exact absurd (decode_fetchWords_error_cause hd) (by decide)
  | raised _ _ _ hr => cases hr
  | notEmitted x hx hfail => exact .inl ⟨⟨x, hx⟩, hfail⟩
  | closed hin hev => exact .inr ⟨hin, hev⟩

theorem StepFaults.stackOverflow (h : StepFaults s .stackOverflow t) :
    s.build.stackCapacity = some s.stack.length ∧
      ((∃ x, s.nextInstr = some (.push x)) ∨ (∃ x, s.nextInstr = some (.call x))) := by
  cases h with
  | fetched _ _ hd => exact absurd (decode_fetchWords_error_cause hd) (by decide)
  | raised i _ hi hr =>
    cases hr with
    | fullStackPush a he hfull => exact ⟨hfull, .inl ⟨a, he ▸ hi⟩⟩
    | fullStackCall a he hfull => exact ⟨hfull, .inr ⟨a, he ▸ hi⟩⟩

end PerCause

/-- Settles O49: one law of the faults of a step for each cause. -/
theorem causesAreRaisedOnlyByTheirInstructions : Obligations.CausesAreRaisedOnlyByTheirInstructions := by
  intro s t c a hrun h ht
  have hf := step_faults hrun h ht
  exact ⟨fun e => (e ▸ hf).decodeError, fun e => (e ▸ hf).typeError, fun e => (e ▸ hf).unknownOpcode,
    fun e => (e ▸ hf).stackUnderflow, fun e => (e ▸ hf).unmappedAddress, fun e => (e ▸ hf).invalidValue,
    fun e => (e ▸ hf).divisionByZero, fun e => not_stepFaults_invalidScalarValue (e ▸ hf),
    fun e => (e ▸ hf).ioFailure, fun e => (e ▸ hf).stackOverflow⟩

end Sys2Proof.Machine
end

section
/-! SUPPORT. R29, R79: what the fetch and the decoder answer on the selector word, and the fault they take. -/

namespace Sys2Proof.Machine

theorem step_takes_decode_fault {s : State} {c : Cause} (hrun : s.status = .running) (hwait : s.waiting = none)
    (hdec : decode (fetchWords s) = .error c) : ∃ t, step s = .next t ∧ FaultTaken c s.pc s t :=
  ⟨_, step_of_decode_error hrun hwait hdec, takeFault_faultTaken c s⟩

theorem fetchWords_of_pc_le {s : State} (hpc : s.pc.toNat ≤ 32767) :
    fetchWords s = s.mem.wordAt s.pc.toNat :: fetchFrom s.mem 3 (s.pc.toNat + 1) :=
  fetchFrom_succ s.mem 3 s.pc.toNat hpc

theorem decode_cons_of_selector_error {w : Word} {c : Cause} (ws : List Word) (h : decodeSelector w = .error c) :
    decode (w :: ws) = .error c := by
  simp only [decode, h]

/-- Settles O9: the selector check fails on a word of the first two ranges, and the opcode map on one of the third. -/
theorem malformedSelectorFaults : Obligations.MalformedSelectorFaults := by
  intro s hrun hwait hpc
  refine ⟨fun hinvalid => step_takes_decode_fault hrun hwait ?invalid,
    fun hlow hhigh => step_takes_decode_fault hrun hwait ?register,
    fun hlow hhigh => step_takes_decode_fault hrun hwait ?unknown⟩ <;> rw [fetchWords_of_pc_le hpc]
  case invalid => exact decode_cons_of_selector_error _ (decodeSelector_invalid _ hinvalid)
  case register => exact decode_cons_of_selector_error _ (decodeSelector_register _ hlow hhigh)
  case unknown => rw [decode_cons_of_immediate _ _ hhigh, decodeBody_unknown _ _ hlow]

/-- Settles O10: nothing is fetched at 32768, and a fault leaves the pointer there. -/
theorem fetchPastTheEndFaults : Obligations.FetchPastTheEndFaults := by
  intro s hrun hwait hpc
  have hdec : decode (fetchWords s) = .error .unmappedAddress := by
    rw [fetchWords, fetchFrom_past_end _ _ _ (by omega), decode]
  exact ⟨_, step_of_decode_error hrun hwait hdec, takeFault_faultTaken _ s, hpc⟩

end Sys2Proof.Machine
end

section
/-! SUPPORT. R74: an instruction whose destination is an immediate. -/

namespace Sys2Proof.Machine

theorem dest?_of_not_wf {i : Instr} (h : i.wf = false) : ∃ v, i.dest? = some (.imm v) := by
  unfold Instr.wf at h
  split at h
  · cases h
  · next d hd =>
    cases d with
    | imm v => exact ⟨v, hd⟩
    | reg r => cases h

/-- Settles O12: the kind check, and that it comes first in every instruction with a destination. -/
theorem immediateDestinationTakesTypeError : Obligations.ImmediateDestinationTakesTypeError := by
  refine ⟨requireRegister_reg, requireRegister_imm, fun i s hwf => ?_⟩
  obtain ⟨v, hdest⟩ := dest?_of_not_wf hwf
  exact ⟨_, exec_immediate_destination i s v hdest, takeFault_faultTaken _ s, rfl, rfl, rfl⟩

end Sys2Proof.Machine
end

section
/-! SUPPORT. R82: the first bad operand word decides the fault. `WordFails` names the word, and every format decoder that
comes as far as it answers its cause. -/

namespace Sys2Proof.Machine

/-! ## One operand word -/

/-- The word at address `a` is fetched and valid. -/
def WordValid (m : Memory) (a : Nat) : Prop := a ≤ 32767 ∧ (m.wordAt a).toNat ≤ 32775

theorem not_wordValid_of_wordFails {m : Memory} {a : Nat} {c : Cause} (h : WordFails m a c) : ¬ WordValid m a := by
  rintro ⟨ha, hvalid⟩
  rcases h with ⟨_, he⟩ | ⟨_, _, hinvalid⟩ <;> omega

/-- The converse of `takeOperand_fetch_error`. -/
theorem takeOperand_of_wordFails {m : Memory} {a : Nat} {c : Cause} (n : Nat) (h : WordFails m a c) :
    takeOperand (fetchFrom m (n + 1) a) = .error c := by
  rcases h with ⟨rfl, rfl⟩ | ⟨rfl, ha, hw⟩
  · rw [fetchFrom_past_end _ _ _ (by omega), takeOperand_nil]
  · simp only [fetchFrom_succ m n a ha, takeOperand, decodeOperand_invalid _ hw]

theorem takeOperand_of_immediate {m : Memory} {a : Nat} (n : Nat) (ha : a ≤ 32767) (hw : (m.wordAt a).toNat ≤ 32767) :
    ∃ v, takeOperand (fetchFrom m (n + 1) a) = .ok (.imm v, fetchFrom m n (a + 1)) :=
  ⟨_, by simp only [fetchFrom_succ m n a ha, takeOperand, decodeOperand_immediate _ hw]; rfl⟩

theorem takeOperand_of_register {m : Memory} {a : Nat} (n : Nat) (h : WordValid m a) (hw : 32768 ≤ (m.wordAt a).toNat) :
    ∃ r, takeOperand (fetchFrom m (n + 1) a) = .ok (.reg r, fetchFrom m n (a + 1)) := by
  obtain ⟨ha, hvalid⟩ := h
  exact ⟨_, by simp only [fetchFrom_succ m n a ha, takeOperand, decodeOperand_register _ hw hvalid]; rfl⟩

theorem takeOperand_of_valid {m : Memory} {a : Nat} (n : Nat) (h : WordValid m a) :
    ∃ op, takeOperand (fetchFrom m (n + 1) a) = .ok (op, fetchFrom m n (a + 1)) := by
  by_cases hw : (m.wordAt a).toNat ≤ 32767
  · obtain ⟨ha, _⟩ := h
    obtain ⟨v, hv⟩ := takeOperand_of_immediate n ha hw
    exact ⟨_, hv⟩
  · obtain ⟨r, hr⟩ := takeOperand_of_register n h (by omega)
    exact ⟨_, hr⟩

/-- Of the `n` words from `a` on some word fails with `c`, and those before it are valid. -/
def FirstFails (m : Memory) : Nat → Nat → Cause → Prop
  | 0, _, _ => False
  | n + 1, a, c => WordFails m a c ∨ (WordValid m a ∧ FirstFails m n (a + 1) c)

theorem firstFails_of_wordFails {m : Memory} {n a k : Nat} {c : Cause} (hk : k < n) (h : WordFails m (a + k) c)
    (hvalid : ∀ j < k, WordValid m (a + j)) : FirstFails m n a c := by
  induction n generalizing a k with
  | zero => omega
  | succ n ih =>
    cases k with
    | zero => exact .inl h
    | succ k =>
      have shift : ∀ j, a + 1 + j = a + (j + 1) := by omega
      exact .inr ⟨hvalid 0 k.succ_pos, ih (k := k) (by omega) (shift k ▸ h) fun j hj => shift j ▸ hvalid _ (by omega)⟩

/-! ## The formats (R77) on operand words fetched from `a` on -/

section Formats

variable {m : Memory} {a : Nat} {c : Cause}

theorem decodeOne_of_firstFails (mk : Operand → Instr) (n : Nat) (h : FirstFails m 1 a c) :
    decodeOne mk (fetchFrom m (n + 1) a) = .error c := by
  rcases h with h | ⟨_, hnone⟩
  · simp only [decodeOne, takeOperand_of_wordFails n h]
  · exact hnone.elim

theorem decodeTwo_of_firstFails (mk : Operand → Operand → Instr) (n : Nat) (h : FirstFails m 2 a c) :
    decodeTwo mk (fetchFrom m (n + 2) a) = .error c := by
  rcases h with h | ⟨hvalid, h⟩
  · simp only [decodeTwo, takeOperand_of_wordFails (n + 1) h]
  · obtain ⟨op, hop⟩ := takeOperand_of_valid (n + 1) hvalid
    simp only [decodeTwo, hop, decodeOne_of_firstFails _ n h]

/-- A destination that is a register lets the fault of a later word pass. -/
theorem decodeDestOne_of_firstFails (mk : Operand → Operand → Instr) (n : Nat) (h : FirstFails m 2 a c)
    (hreg : WordValid m a → 32768 ≤ (m.wordAt a).toNat) : decodeDestOne mk (fetchFrom m (n + 2) a) = .error c := by
  rcases h with h | ⟨hvalid, h⟩
  · simp only [decodeDestOne, takeOperand_of_wordFails (n + 1) h]
  · obtain ⟨r, hr⟩ := takeOperand_of_register (n + 1) hvalid (hreg hvalid)
    simp only [decodeDestOne, hr, decodeOne_of_firstFails _ n h, afterDestination, requireRegister_reg]

theorem decodeDestTwo_of_firstFails (mk : Operand → Operand → Operand → Instr) (n : Nat) (h : FirstFails m 3 a c)
    (hreg : WordValid m a → 32768 ≤ (m.wordAt a).toNat) : decodeDestTwo mk (fetchFrom m (n + 3) a) = .error c := by
  rcases h with h | ⟨hvalid, h⟩
  · simp only [decodeDestTwo, takeOperand_of_wordFails (n + 2) h]
  · obtain ⟨r, hr⟩ := takeOperand_of_register (n + 2) hvalid (hreg hvalid)
    simp only [decodeDestTwo, hr, decodeTwo_of_firstFails _ n h, afterDestination, requireRegister_reg]

end Formats

/-! ## The rows of the opcode map (R78) by their formats -/

/-- The format of the row of selector `sel`: its decoder, and whether its first operand is a destination. -/
inductive RowFormat (sel : Nat) : Prop where
  /-- `F0`. -/
  | none : operandCount sel = 0 → hasDestination sel = false → RowFormat sel
  /-- `FV` and `FR`. -/
  | one (mk : Operand → Instr) : operandCount sel = 1 → decodeBody sel = decodeOne mk →
      (hasDestination sel = true → ∀ d, (mk d).dest? = some d) → RowFormat sel
  /-- `FVV`. -/
  | two (mk : Operand → Operand → Instr) : operandCount sel = 2 → decodeBody sel = decodeTwo mk →
      hasDestination sel = false → RowFormat sel
  /-- `FRV`. -/
  | destOne (mk : Operand → Operand → Instr) : operandCount sel = 2 → decodeBody sel = decodeDestOne mk →
      hasDestination sel = true → (∀ d a, (mk d a).dest? = some d) → RowFormat sel
  /-- `FRVV`. -/
  | destTwo (mk : Operand → Operand → Operand → Instr) : operandCount sel = 3 → decodeBody sel = decodeDestTwo mk →
      hasDestination sel = true → (∀ d a b, (mk d a b).dest? = some d) → RowFormat sel

theorem rowFormat_of_le : ∀ sel, sel ≤ 21 → RowFormat sel
  | 0, _ | 18, _ | 21, _ => .none rfl rfl
  | 2, _ => .one .push rfl rfl nofun
  | 3, _ => .one .pop rfl rfl fun _ _ => rfl
  | 6, _ => .one .jmp rfl rfl nofun
  | 17, _ => .one .call rfl rfl nofun
  | 19, _ => .one .out rfl rfl nofun
  | 20, _ => .one .inp rfl rfl fun _ _ => rfl
  | 7, _ => .two .jt rfl rfl rfl
  | 8, _ => .two .jf rfl rfl rfl
  | 16, _ => .two .wmem rfl rfl rfl
  | 1, _ => .destOne .set rfl rfl rfl fun _ _ => rfl
  | 14, _ => .destOne .not rfl rfl rfl fun _ _ => rfl
  | 15, _ => .destOne .rmem rfl rfl rfl fun _ _ => rfl
  | 4, _ => .destTwo .eq rfl rfl rfl fun _ _ _ => rfl
  | 5, _ => .destTwo .gt rfl rfl rfl fun _ _ _ => rfl
  | 9, _ => .destTwo .add rfl rfl rfl fun _ _ _ => rfl
  | 10, _ => .destTwo .mult rfl rfl rfl fun _ _ _ => rfl
  | 11, _ => .destTwo .mod rfl rfl rfl fun _ _ _ => rfl
  | 12, _ => .destTwo .and rfl rfl rfl fun _ _ _ => rfl
  | 13, _ => .destTwo .or rfl rfl rfl fun _ _ _ => rfl
  | n + 22, h => absurd h (by omega)

section Rows

variable {sel : Nat} {m : Memory} {a : Nat}

/-- The converse of the middle case of `decodeBody_fetch_error`. -/
theorem decodeBody_of_firstFails {c : Cause} (hsel : sel ≤ 21) (h : FirstFails m (operandCount sel) a c)
    (hreg : hasDestination sel = true → WordValid m a → 32768 ≤ (m.wordAt a).toNat) :
    decodeBody sel (fetchFrom m 3 a) = .error c := by
  cases rowFormat_of_le sel hsel with
  | none hn _ => exact (hn ▸ h).elim
  | one mk hn hrow _ => rw [hrow, decodeOne_of_firstFails mk 2 (hn ▸ h)]
  | two mk hn hrow _ => rw [hrow, decodeTwo_of_firstFails mk 1 (hn ▸ h)]
  | destOne mk hn hrow hdest _ => rw [hrow, decodeDestOne_of_firstFails mk 1 (hn ▸ h) (hreg hdest)]
  | destTwo mk hn hrow hdest _ => rw [hrow, decodeDestTwo_of_firstFails mk 0 (hn ▸ h) (hreg hdest)]

/-- After an immediate destination the decoder goes on only if the later words are all good. -/
theorem afterDestination_imm_cases (v : Val) (later : Except Cause Instr) :
    afterDestination (.imm v) later = .error .typeError ∨
    ∃ i, later = .ok i ∧ afterDestination (.imm v) later = .ok i := by
  cases later with
  | ok i => exact .inr ⟨i, rfl, rfl⟩
  | error c => exact .inl rfl

/-- An immediate in the place of a destination fails in the decoder, or leaves an instruction that is ill-formed. -/
theorem decodeBody_of_immediate_destination (hsel : sel ≤ 21) (hdest : hasDestination sel = true) (ha : a ≤ 32767)
    (hw : (m.wordAt a).toNat ≤ 32767) :
    decodeBody sel (fetchFrom m 3 a) = .error .typeError ∨
    ∃ i v, decodeBody sel (fetchFrom m 3 a) = .ok i ∧ i.dest? = some (.imm v) := by
  obtain ⟨v, hv⟩ := takeOperand_of_immediate 2 ha hw
  cases rowFormat_of_le sel hsel with
  | none _ hno => exact nomatch hno.symm.trans hdest
  | one mk _ hrow hmk => exact .inr ⟨mk (.imm v), v, by simp only [hrow, decodeOne, hv], hmk hdest _⟩
  | two mk _ _ hno => exact nomatch hno.symm.trans hdest
  | destOne mk _ hrow _ hmk =>
    simp only [hrow, decodeDestOne, hv]
    refine (afterDestination_imm_cases v _).imp_right ?_
    rintro ⟨i, hlater, hi⟩
    obtain ⟨x, _, _, rfl⟩ := (decodeOne_ok _ _ _).1 hlater
    exact ⟨_, v, hi, hmk _ x⟩
  | destTwo mk _ hrow _ hmk =>
    simp only [hrow, decodeDestTwo, hv]
    refine (afterDestination_imm_cases v _).imp_right ?_
    rintro ⟨i, hlater, hi⟩
    obtain ⟨x, y, _, _, rfl⟩ := (decodeTwo_ok _ _ _).1 hlater
    exact ⟨_, v, hi, hmk _ x y⟩

end Rows

/-! ## The step -/

theorem decode_fetchWords_of_selector {s : State} (hpc : s.pc.toNat ≤ 32767)
    (hsel : (s.mem.wordAt s.pc.toNat).toNat ≤ 21) :
    decode (fetchWords s) = decodeBody (s.mem.wordAt s.pc.toNat).toNat (fetchFrom s.mem 3 (s.pc.toNat + 1)) := by
  rw [fetchWords_of_pc_le hpc, decode_cons_of_immediate _ _ (by omega)]

theorem step_takes_typeError_of_immediate_destination {s : State} (hrun : s.status = .running)
    (hwait : s.waiting = none) (hpc : s.pc.toNat + 1 ≤ 32767) (hsel : (s.mem.wordAt s.pc.toNat).toNat ≤ 21)
    (hdest : hasDestination (s.mem.wordAt s.pc.toNat).toNat = true)
    (hw : (s.mem.wordAt (s.pc.toNat + 1)).toNat ≤ 32767) :
    ∃ t, step s = .next t ∧ FaultTaken .typeError s.pc s t := by
  have hdecode := decode_fetchWords_of_selector (by omega) hsel
  rcases decodeBody_of_immediate_destination hsel hdest hpc hw with hbad | ⟨i, v, hok, hi⟩
  · exact step_takes_decode_fault hrun hwait (hdecode.trans hbad)
  · have hexec := stepRunsTheDecodedInstruction s i hrun hwait (hdecode.trans hok)
    exact ⟨_, hexec.trans (exec_immediate_destination i s v hi), takeFault_faultTaken _ s⟩

/-- Settles O11: the first two clauses are the two ways in which a word fails, and the third is an immediate in the place
of a destination. -/
theorem firstBadOperandWordDecidesTheFault : Obligations.FirstBadOperandWordDecidesTheFault := by
  intro s k hrun hwait hpc hsel hk hcount hgood
  have wordFails : ∀ {c}, s.pc.toNat + k ≤ 32768 → WordFails s.mem (s.pc.toNat + k) c →
      ∃ t, step s = .next t ∧ FaultTaken c s.pc s t := by
    intro c hrange hfails
    have shift : ∀ j, s.pc.toNat + 1 + j = s.pc.toNat + (j + 1) := by omega
    refine step_takes_decode_fault hrun hwait
      ((decode_fetchWords_of_selector hpc hsel).trans (decodeBody_of_firstFails hsel ?first ?register))
    case first =>
      refine firstFails_of_wordFails (k := k - 1) (by omega) ?_ fun j hj => ?_
      · rwa [shift, Nat.sub_add_cancel hk]
      · obtain ⟨hvalid, _⟩ := hgood (j + 1) (by omega) (by omega)
        rw [shift]
        exact ⟨by omega, hvalid⟩
    case register =>
      intro hdest hvalid
      by_cases hone : k = 1
      · exact absurd hvalid (not_wordValid_of_wordFails (hone ▸ hfails))
      · obtain ⟨_, hreg⟩ := hgood 1 le_rfl (by omega)
        exact hreg rfl hdest
  exact ⟨fun he => wordFails (by omega) (.inl ⟨rfl, he⟩), fun hle hw => wordFails (by omega) (.inr ⟨rfl, hle, hw⟩),
    fun hle hone hdest hw => step_takes_typeError_of_immediate_destination hrun hwait (hone ▸ hle) hsel hdest
      (hone ▸ hw)⟩

end Sys2Proof.Machine
end

section
/-! SUPPORT. The frame of a question to the input port, whatever it answers (R185, R187). -/

namespace Sys2Proof.Machine

@[simp] theorem askInput_mem (p : PendingRead) (s : State) : (askInput p s).mem = s.mem := by
  rcases askInput_cases p s with ⟨_, _, h⟩ | ⟨_, h⟩ | ⟨_, h⟩ <;> simp [h]

@[simp] theorem askInput_build (p : PendingRead) (s : State) : (askInput p s).build = s.build := by
  rcases askInput_cases p s with ⟨_, _, h⟩ | ⟨_, h⟩ | ⟨_, h⟩ <;> simp [h]

@[simp] theorem askInput_outTrace (p : PendingRead) (s : State) : (askInput p s).outTrace = s.outTrace := by
  rcases askInput_cases p s with ⟨_, _, h⟩ | ⟨_, h⟩ | ⟨_, h⟩ <;> simp [h]

theorem askInput_inTrace_prefix (p : PendingRead) (s : State) : s.inTrace <+: (askInput p s).inTrace := by
  rcases askInput_cases p s with ⟨_, _, h⟩ | ⟨_, h⟩ | ⟨_, h⟩ <;> simp [h]

theorem askInput_reg_ne (p : PendingRead) (s : State) {r : RegIdx} (hr : r ≠ p.dest) :
    (askInput p s).reg r = s.reg r := by
  rcases askInput_cases p s with ⟨_, _, h⟩ | ⟨_, h⟩ | ⟨_, h⟩ <;> simp [h, State.reg_setReg_ne _ _ _ _ hr]

/-- The pointer stands after the words of the `in`, or at its start where a fault has ended the run. -/
theorem askInput_pc_cases (p : PendingRead) (s : State) :
    (askInput p s).pc = p.start + 2 ∨ ((askInput p s).pc = p.start ∧ (askInput p s).ended = true) := by
  rcases askInput_cases p s with ⟨_, _, h⟩ | ⟨_, h⟩ | ⟨_, h⟩ <;> simp [h]

/-- A machine that waits after the question waits for the same read. -/
theorem askInput_waiting {p q : PendingRead} {s : State} (hq : (askInput p s).waiting = some q) :
    q = p ∧ (askInput p s).status = s.status ∧ (askInput p s).pc = p.start + 2 := by
  rcases askInput_cases p s with ⟨_, _, h⟩ | ⟨_, h⟩ | ⟨_, h⟩ <;> rw [h] at hq ⊢ <;> cases hq
  exact ⟨rfl, rfl, rfl⟩

end Sys2Proof.Machine
end

section
/-! SUPPORT. R28: where the pointer stands after an instruction, and its range (R27). -/

namespace Sys2Proof.Machine

/-- Settles O13: of the ends of an instruction that is neither a jump, a call nor a ret, all that go on advance the
pointer by its length. -/
theorem nextInstructionStartsAfterTheLastWord : Obligations.NextInstructionStartsAfterTheLastWord := by
  intro s t i hi h hgoes hjmp hjt hjf hcall hret
  have hends := ends_of_nextInstr hi h
  cases hends with
  | written | passed => rfl
  | popped _ _ _ he | pushed _ he | stored _ _ he | emitted _ he => rw [he]; rfl
  | called a _ he => exact absurd he (hcall a)
  | returned _ _ he => exact absurd he hret
  | jumped _ he =>
    rcases he with ⟨a, he⟩ | ⟨a, b, he⟩ | ⟨a, b, he⟩
    · exact absurd he (hjmp a)
    · exact absurd he (hjt a b)
    · exact absurd he (hjf a b)
  | asked r he =>
    rcases askInput_pc_cases ⟨r, s.pc⟩ s with hpc | ⟨_, hended⟩
    · rw [hpc, he]
      rfl
    · exact nomatch hgoes.symm.trans hended
  | halted | notEmitted | faulted => cases hgoes

/-- An instruction that decodes lies inside memory. -/
theorem pc_add_length_le {s : State} {i : Instr} (h : decode (fetchWords s) = .ok i) :
    s.pc.toNat + i.length ≤ 32768 := by
  obtain ⟨rest, hfetch⟩ := decodedWordsBeginWithTheEncoding _ i h
  have hlen : i.length ≤ (fetchWords s).length := by
    rw [hfetch, List.length_append, encode_length]
    exact Nat.le_add_right ..
  have hfit : (fetchWords s).length ≤ 32768 - s.pc.toNat := fetchFrom_length_le s.mem 4 s.pc.toNat
  have hpos : 0 < i.length := by
    rw [Instr.length]
    omega
  omega

/-- Up to the end of memory the 16 bits of the pointer do not wrap (R27). -/
theorem word_add_ofNat_toNat {w : Word} {n : Nat} (h : w.toNat + n ≤ 32768) :
    (w + BitVec.ofNat 16 n).toNat = w.toNat + n := by
  rw [BitVec.toNat_add, BitVec.toNat_ofNat]
  omega

theorem word_add_ofNat_le {w : Word} {n : Nat} (h : w.toNat + n ≤ 32768) : (w + BitVec.ofNat 16 n).toNat ≤ 32768 :=
  (word_add_ofNat_toNat h).trans_le h

theorem jump_pc_le (s : State) (v : Val) : (s.jump v).pc.toNat ≤ 32768 := by
  rw [jump_pc_toNat]
  exact v.isLt.le

theorem askInput_pc_le {p : PendingRead} (s : State) (h : p.start.toNat ≤ 32766) :
    (askInput p s).pc.toNat ≤ 32768 := by
  rcases askInput_pc_cases p s with hpc | ⟨hpc, _⟩
  · rw [hpc]
    exact word_add_ofNat_le (n := 2) (by omega)
  · rw [hpc]
    omega

theorem Ends.pc_le {i : Instr} {s t : State} (h : Ends i s t) (hlen : s.pc.toNat + i.length ≤ 32768) :
    t.pc.toNat ≤ 32768 := by
  cases h with
  | written | passed => exact word_add_ofNat_le hlen
  | popped _ _ _ he | pushed _ he | stored _ _ he | emitted _ he =>
    subst he
    exact word_add_ofNat_le hlen
  | called | returned | jumped => exact jump_pc_le _ _
  | halted he =>
    refine word_add_ofNat_le (n := 1) ?_
    rcases he with rfl | ⟨rfl, _⟩ <;> exact hlen
  | asked r he =>
    subst he
    exact askInput_pc_le s (Nat.le_of_add_le_add_right (b := 2) hlen)
  | notEmitted | faulted => exact (Nat.le_add_right ..).trans hlen

end Sys2Proof.Machine
end

section
/-! SUPPORT. R40, C3: what a step does to memory. -/

namespace Sys2Proof.Machine

theorem Ends.mem_cases {i : Instr} {s t : State} (h : Ends i s t) :
    t.mem = s.mem ∨ ∃ a b, i = .wmem a b ∧
      t.mem = memWrite s.mem (resolve s a) (BitVec.ofNat 16 (resolve s b).toNat) := by
  cases h with
  | stored a b he => exact .inr ⟨a, b, he, rfl⟩
  | asked r => exact .inl (askInput_mem _ s)
  | written | popped | pushed | called | returned | jumped | passed | halted | emitted | notEmitted | faulted =>
    exact .inl rfl

theorem step_mem_cases {s t : State} (h : step s = .next t) :
    t.mem = s.mem ∨ ∃ a b, s.nextInstr = some (.wmem a b) ∧
      t.mem = memWrite s.mem (resolve s a) (BitVec.ofNat 16 (resolve s b).toNat) := by
  rcases step_next_cases s t h with ⟨_, rfl⟩ | ⟨p, _, _, rfl⟩ | ⟨c, _, _, _, rfl⟩ | ⟨i, _, _, _, hi, hends⟩
  · exact .inl rfl
  · exact .inl (askInput_mem p s)
  · exact .inl rfl
  · simpa only [hi, Option.some.injEq] using hends.mem_cases

/-- Settles O39: a step that is no `wmem` leaves the memory itself, and a `wmem` writes one word. -/
theorem onlyWmemChangesMemory : Obligations.OnlyWmemChangesMemory := by
  intro s t h hchanged
  rcases step_mem_cases h with hsame | ⟨a, b, hi, hmem⟩
  · exact absurd (fun x => by rw [hsame]) hchanged
  · refine ⟨a, b, hi, fun x hlow hhigh => ?_⟩
    rw [hmem]
    exact memWrite_byteAt_ne s.mem _ _ x hlow hhigh

end Sys2Proof.Machine
end

section
/-! SUPPORT. R24: what a step does to the registers. -/

namespace Sys2Proof.Machine

theorem State.eq_of_reg_setReg_ne {s : State} {r q : RegIdx} {v : Val} (h : (s.setReg r v).reg q ≠ s.reg q) : q = r :=
  Decidable.by_contra fun hne => h (s.reg_setReg_ne r q v hne)

theorem eq_dest_of_askInput_reg_ne {p : PendingRead} {s : State} {r : RegIdx}
    (h : (askInput p s).reg r ≠ s.reg r) : r = p.dest :=
  Decidable.by_contra fun hne => h (askInput_reg_ne p s hne)

theorem Ends.dest?_of_reg_ne {i : Instr} {s t : State} (h : Ends i s t) {r : RegIdx} (hne : t.reg r ≠ s.reg r) :
    i.dest? = some (.reg r) := by
  cases h with
  | written q v he => rw [he, State.eq_of_reg_setReg_ne hne]
  | popped q below v he => rw [he, State.eq_of_reg_setReg_ne (s := s.setStack below) hne]; rfl
  | asked q he => rw [he, eq_dest_of_askInput_reg_ne hne]; rfl
  | pushed | called | returned | jumped | passed | stored | halted | emitted | notEmitted | faulted =>
    exact absurd rfl hne

/-- Settles O59: of the ends of an instruction only three write a register, each its destination. -/
theorem registersChangeOnlyAsDestinations : Obligations.RegistersChangeOnlyAsDestinations := by
  intro s t r h hne
  rcases step_next_cases s t h with ⟨_, rfl⟩ | ⟨p, _, hp, rfl⟩ | ⟨c, _, _, _, rfl⟩ | ⟨i, _, _, _, hi, hends⟩
  · exact absurd rfl hne
  · exact .inr ⟨p, hp, (eq_dest_of_askInput_reg_ne hne).symm⟩
  · exact absurd rfl hne
  · exact .inl ⟨i, hi, hends.dest?_of_reg_ne hne⟩

end Sys2Proof.Machine
end

section
/-! SUPPORT. R183, R254: the traces along a run. -/

namespace Sys2Proof.Machine

/-- The traces of `t` are those of `s` and more, in the same build. -/
structure TracesGrow (s t : State) : Prop where
  output : s.outTrace <+: t.outTrace
  input : s.inTrace <+: t.inTrace
  build : t.build = s.build

theorem TracesGrow.refl (s : State) : TracesGrow s s := ⟨List.prefix_rfl, List.prefix_rfl, rfl⟩

theorem TracesGrow.trans {s t u : State} (h : TracesGrow s t) (h' : TracesGrow t u) : TracesGrow s u :=
  ⟨h.output.trans h'.output, h.input.trans h'.input, h'.build.trans h.build⟩

theorem askInput_tracesGrow (p : PendingRead) (s : State) : TracesGrow s (askInput p s) :=
  ⟨by rw [askInput_outTrace], askInput_inTrace_prefix p s, askInput_build p s⟩

theorem Ends.tracesGrow {i : Instr} {s t : State} (h : Ends i s t) : TracesGrow s t := by
  cases h with
  | asked r => exact askInput_tracesGrow _ s
  | emitted => exact ⟨List.prefix_append .., List.prefix_rfl, rfl⟩
  | written | popped | pushed | called | returned | jumped | passed | stored | halted | notEmitted | faulted =>
    exact ⟨List.prefix_rfl, List.prefix_rfl, rfl⟩

theorem step_tracesGrow {s t : State} (h : step s = .next t) : TracesGrow s t := by
  rcases step_next_cases s t h with ⟨_, rfl⟩ | ⟨p, _, _, rfl⟩ | ⟨c, _, _, _, rfl⟩ | ⟨i, _, _, _, _, hends⟩
  · exact .refl _
  · exact askInput_tracesGrow p s
  · exact ⟨List.prefix_rfl, List.prefix_rfl, rfl⟩
  · exact hends.tracesGrow

theorem Steps.tracesGrow {s t : State} (h : Steps s t) : TracesGrow s t := by
  induction h with
  | refl => exact .refl s
  | step t u _ hstep ih => exact ih.trans (step_tracesGrow hstep)

/-- Settles O60: the traces grow along a step, and so along a run. -/
theorem outputTraceOnlyGrows : Obligations.OutputTraceOnlyGrows := by
  intro s t h
  obtain ⟨⟨out, hout⟩, ⟨inp, hinp⟩, hbuild⟩ := h.tracesGrow
  exact ⟨⟨out, hout.symm⟩, ⟨inp, hinp.symm⟩, hbuild⟩

end Sys2Proof.Machine
end

section
/-! SUPPORT. R250: the ends of an instruction that halt the machine. -/

namespace Sys2Proof.Machine

theorem askInput_status_ne_halted {p : PendingRead} {s : State} (hrun : s.status = .running) :
    (askInput p s).status ≠ .halted := by
  rcases askInput_status_cases p s with he | ⟨_, he⟩
  · rw [he, hrun]
    nofun
  · rw [he]
    nofun

theorem Ends.halted_cases {i : Instr} {s t : State} (h : Ends i s t) (hrun : s.status = .running)
    (ht : t.status = .halted) : i = .halt ∨ (i = .ret ∧ s.stack = []) := by
  cases h with
  | halted he => exact he
  | asked r => exact absurd ht (askInput_status_ne_halted hrun)
  | written | popped | pushed | called | returned | jumped | passed | stored | emitted =>
    exact nomatch hrun.symm.trans ht
  | notEmitted | faulted => cases ht

/-- Settles O54: only one end of an instruction halts, and no other step does. -/
theorem onlyHaltAndEmptyRetEndNormally : Obligations.OnlyHaltAndEmptyRetEndNormally := by
  intro s t hrun h ht
  rcases step_next_cases s t h with ⟨_, rfl⟩ | ⟨p, _, _, rfl⟩ | ⟨c, _, _, _, rfl⟩ | ⟨i, _, _, _, hi, hends⟩
  · exact nomatch hrun.symm.trans ht
  · exact absurd ht (askInput_status_ne_halted hrun)
  · cases ht
  · simpa only [hi, Option.some.injEq] using hends.halted_cases hrun ht

end Sys2Proof.Machine
end

section
/-! SUPPORT. The invariant: at reset, after a load, and along every step. -/

namespace Sys2Proof.Machine

/-! ## Where a run begins -/

/-- What a load changes of the reset state does not touch the invariant, but for the memory. -/
theorem inv_of_reset_with (build : Build) (ports : Ports) {mem : Memory} (hmem : mem.wf = true) :
    State.Inv { State.reset with mem := mem, build := build, ports := ports } where
  memory := hmem
  pointer := Nat.zero_le _
  capacity _ _ := Nat.zero_le _
  wait := nofun
  fault := nofun

/-- Settles O55: the reset state is the load of an empty memory. -/
theorem resetHasTheInvariant : Obligations.ResetHasTheInvariant :=
  inv_of_reset_with Build.reset Ports.reset (mem := []) rfl

/-- Settles O56: an accepted image has at most the bytes of memory, so its list is in the canonical form. -/
theorem loadedMachineHasTheInvariant : Obligations.LoadedMachineHasTheInvariant := by
  intro build ports image t h
  by_cases heven : image.length % 2 = 0
  · by_cases hfits : image.length / 2 ≤ 32768
    · have hsize : 0 + image.length ≤ Memory.size := by
        rw [Memory.size]
        omega
      rw [load_of_fits build ports image heven hfits] at h
      cases h
      exact inv_of_reset_with build ports (Memory.wfFrom_ofBytes 0 image hsize)
    · rw [load_of_tooLong build ports image heven (by omega)] at h
      cases h
  · rw [load_of_odd build ports image heven] at h
    cases h

/-! ## What each step keeps -/

theorem step_mem_wf {s t : State} (hinv : s.Inv) (h : step s = .next t) : t.mem.wf = true := by
  rcases step_mem_cases h with hsame | ⟨a, b, _, hmem⟩
  · rw [hsame, hinv.memory]
  · rw [hmem, memWrite_wf s.mem _ _ hinv.memory]

theorem step_pc_le {s t : State} (hinv : s.Inv) (h : step s = .next t) : t.pc.toNat ≤ 32768 := by
  rcases step_next_cases s t h with ⟨_, rfl⟩ | ⟨p, _, hp, rfl⟩ | ⟨c, _, _, _, rfl⟩ | ⟨i, _, _, hd, _, hends⟩
  · exact hinv.pointer
  · obtain ⟨_, hstart, _⟩ := hinv.wait p hp
    exact askInput_pc_le s hstart
  · exact hinv.pointer
  · exact hends.pc_le (pc_add_length_le hd)

/-- A push is made only where the capacity leaves room. -/
theorem length_append_le_of_room {s : State} {k : Nat} (v : Val) (hle : s.stack.length ≤ k)
    (hk : s.build.stackCapacity = some k) (hroom : s.build.stackCapacity ≠ some s.stack.length) :
    (s.stack ++ [v]).length ≤ k := by
  have hne : s.stack.length ≠ k := fun he => hroom (he ▸ hk)
  rw [List.length_append, List.length_singleton]
  omega

theorem Ends.stack_length_le {i : Instr} {s t : State} {k : Nat} (h : Ends i s t) (hle : s.stack.length ≤ k)
    (hk : s.build.stackCapacity = some k) : t.stack.length ≤ k := by
  have below_le : ∀ {below v}, s.stack = below ++ [v] → below.length ≤ k := fun he =>
    (by simp [he] : _ ≤ s.stack.length).trans hle
  cases h with
  | pushed a _ hroom => exact length_append_le_of_room _ hle hk hroom
  | called a v _ _ hroom => exact length_append_le_of_room _ hle hk hroom
  | popped r below v _ he => exact below_le he
  | returned below v _ he => exact below_le he
  | asked r => rwa [askInput_stack]
  | written | jumped | passed | stored | halted | emitted | notEmitted | faulted => exact hle

theorem step_capacity {s t : State} (hinv : s.Inv) (h : step s = .next t) (k : Nat)
    (hk : t.build.stackCapacity = some k) : t.stack.length ≤ k := by
  rw [(step_tracesGrow h).build] at hk
  have hle := hinv.capacity k hk
  rcases step_next_cases s t h with ⟨_, rfl⟩ | ⟨p, _, _, rfl⟩ | ⟨c, _, _, _, rfl⟩ | ⟨i, _, _, _, _, hends⟩
  · exact hle
  · rwa [askInput_stack]
  · exact hle
  · exact hends.stack_length_le hle hk

/-- An instruction leaves the machine waiting only if it is an `in` that asked the port. -/
theorem Ends.waiting_cases {i : Instr} {s t : State} (h : Ends i s t) :
    t.waiting = s.waiting ∨ t.waiting = none ∨ ∃ r, i = .inp (.reg r) ∧ t = askInput ⟨r, s.pc⟩ s := by
  cases h with
  | asked r he => exact .inr (.inr ⟨r, he, rfl⟩)
  | notEmitted | faulted => exact .inr (.inl rfl)
  | written | popped | pushed | called | returned | jumped | passed | stored | halted | emitted => exact .inl rfl

theorem askInput_keeps_wait {p q : PendingRead} {s : State} (hrun : s.status = .running) (hp : p.start.toNat ≤ 32766)
    (hq : (askInput p s).waiting = some q) :
    (askInput p s).status = .running ∧ q.start.toNat ≤ 32766 ∧ (askInput p s).pc = q.start + 2 := by
  obtain ⟨rfl, hstatus, hpc⟩ := askInput_waiting hq
  exact ⟨hstatus.trans hrun, hp, hpc⟩

theorem step_wait {s t : State} (hinv : s.Inv) (h : step s = .next t) (q : PendingRead) (hq : t.waiting = some q) :
    t.status = .running ∧ q.start.toNat ≤ 32766 ∧ t.pc = q.start + 2 := by
  rcases step_next_cases s t h with ⟨_, rfl⟩ | ⟨p, hrun, hp, rfl⟩ | ⟨c, _, _, _, rfl⟩ | ⟨i, hrun, hw, hd, _, hends⟩
  · exact hinv.wait q hq
  · obtain ⟨_, hstart, _⟩ := hinv.wait p hp
    exact askInput_keeps_wait hrun hstart hq
  · cases hq
  · rcases hends.waiting_cases with hsame | hnone | ⟨r, rfl, rfl⟩
    · exact nomatch hq.symm.trans (hsame.trans hw)
    · exact nomatch hq.symm.trans hnone
    · have hlen : s.pc.toNat + 2 ≤ 32768 := pc_add_length_le hd
      exact askInput_keeps_wait hrun (Nat.le_of_add_le_add_right (b := 2) hlen) hq

theorem step_fault {s t : State} (hinv : s.Inv) (h : step s = .next t) (c : Cause) (a : Word)
    (ht : t.status = .faulted c a) :
    t.pc = a ∧ c ≠ .invalidScalarValue ∧ (c = .stackOverflow → t.build.stackCapacity ≠ none) := by
  by_cases hrun : s.status = .running
  · have hf := step_faults hrun h ht
    obtain ⟨hstatus, hpc, _⟩ := hf.faultTaken
    cases ht.symm.trans hstatus
    refine ⟨hpc, fun e => not_stepFaults_invalidScalarValue (e ▸ hf), fun e => ?_⟩
    obtain ⟨hfull, _⟩ := (e ▸ hf).stackOverflow
    rw [(step_tracesGrow h).build, hfull]
    nofun
  · rcases step_next_cases s t h with ⟨_, rfl⟩ | ⟨_, hrun', _⟩ | ⟨_, hrun', _⟩ | ⟨_, hrun', _⟩
    · exact hinv.fault c a ht
    all_goals exact absurd hrun' hrun

/-- Settles O57: one law of the step for each part of the invariant. -/
theorem stepKeepsTheInvariant : Obligations.StepKeepsTheInvariant := fun _ _ hinv h =>
  ⟨step_mem_wf hinv h, step_pc_le hinv h, step_capacity hinv h, step_wait hinv h, step_fault hinv h⟩

end Sys2Proof.Machine
end

section
/-! SUPPORT. R78 on fixed words, and R100: the end of a run by `halt`. -/

namespace Sys2Proof.Machine

/-- Settles O1: the decoder evaluated on each sequence of words. -/
theorem writtenWordsDecode : Obligations.WrittenWordsDecode := by
  unfold Obligations.WrittenWordsDecode
  decide

/-- Settles O15: row 0 of the opcode map has no operand words, and a halted machine has ended. -/
theorem haltEndsTheRun : Obligations.HaltEndsTheRun :=
  ⟨fun rest => decode_cons_of_immediate 0 rest (by decide), fun s =>
    ⟨(s.advance 1).halt, exec_halt s, rfl, rfl, rfl, rfl, fun _ => rfl, fun _ => rfl, rfl, ⟨rfl, rfl, rfl⟩, rfl⟩⟩

end Sys2Proof.Machine
end

section
/-! SUPPORT. R32, R33, R112, R170: the stack and the instructions that use it. -/

namespace Sys2Proof.Machine

/-- An instruction that a failed check ends takes its fault, and does not touch the ports. -/
theorem exec_takes_fault {i : Instr} {s : State} {c : Cause} (h : exec i s = .next (takeFault c s.pc s)) :
    ∃ t, exec i s = .next t ∧ FaultTaken c s.pc s t ∧ SameIo s t :=
  ⟨_, h, takeFault_faultTaken c s, rfl, rfl, rfl⟩

/-- The return address of a `call`, as a number (R170). -/
theorem returnAddress_toNat {s : State} (h : s.pc.toNat + 2 ≤ 32768) : (s.pc + 2).toNat = s.pc.toNat + 2 :=
  word_add_ofNat_toNat (n := 2) h

/-- Settles O19: `Push` with and without room, and the ends of `push` and `call` on a full stack. -/
theorem fullStackOverflows : Obligations.FullStackOverflows :=
  ⟨fun s v => push_full v s, fun s v => push_room v s, fun s v h => push_room v s (by simp [h]),
    fun s a h => exec_takes_fault (exec_push_full s a h),
    fun s a hpc h => exec_takes_fault (exec_call_full s a ((returnAddress_toNat (by omega)).trans_le hpc) h)⟩

theorem decode_pop_words (d : Operand) (rest : List Word) : decode (3 :: encodeOperand d :: rest) = .ok (.pop d) :=
  (decode_cons_of_immediate 3 _ (by decide)).trans (decodeOne_words .pop d rest)

/-- Settles O20: `pop` is a pop followed by the write of its destination; with nothing to pop it faults. -/
theorem popTakesTheTop : Obligations.PopTakesTheTop := by
  refine ⟨fun d => decode_pop_words (.reg d), fun s d v below h => ?popped,
    fun s d h => exec_takes_fault (exec_pop_empty s d h)⟩
  exact ⟨_, exec_pop s d below v h, State.reg_setReg_self _ d v, rfl, rfl,
    fun r hr => State.reg_setReg_ne (s.setStack below) d r v hr, fun _ => rfl, ⟨rfl, rfl⟩, ⟨rfl, rfl, rfl⟩, rfl⟩

theorem decode_call_words (a : Operand) (rest : List Word) : decode (17 :: encodeOperand a :: rest) = .ok (.call a) :=
  (decode_cons_of_immediate 17 _ (by decide)).trans (decodeOne_words .call a rest)

/-- With room and a return address in range, `call` pushes that address and jumps. -/
theorem exec_call_room {s : State} (a : Operand) (hpc : s.pc.toNat + 2 ≤ 32767)
    (hroom : s.build.stackCapacity ≠ some s.stack.length) : ∃ r : Val, r.toNat = (s.pc + 2).toNat ∧
      exec (.call a) s = .next ((s.setStack (s.stack ++ [r])).jump (resolve s a)) := by
  have hval := mkVal_value (s.pc + 2) ((returnAddress_toNat (by omega)).trans_le hpc)
  obtain ⟨hr, _⟩ := mkVal_ok _ _ hval
  exact ⟨_, hr, exec_call s a _ hval hroom⟩

/-- Settles O40: `call` is the push of its return address followed by a jump, and at the end of memory that address is
no value. -/
theorem callPushesTheReturnAddress : Obligations.CallPushesTheReturnAddress := by
  refine ⟨decode_call_words, fun s a hpc hroom => ?called, fun s a hpc => exec_takes_fault (exec_call_invalid s a ?past)⟩
  case called =>
    obtain ⟨r, hr, he⟩ := exec_call_room a hpc hroom
    exact ⟨_, r, he, rfl, hr.trans (returnAddress_toNat (by omega)), jump_pc_toNat _ _, fun _ => rfl, fun _ => rfl,
      ⟨rfl, rfl⟩, ⟨rfl, rfl, rfl⟩, rfl⟩
  case past =>
    rw [returnAddress_toNat hpc.le, hpc]
    decide

/-- Settles O42: the `ret` pops the return address that the `call` pushed, and jumps to it. -/
theorem retUndoesCall : Obligations.RetUndoesCall := by
  intro s t a hpc hroom h
  obtain ⟨r, hr, he⟩ := exec_call_room a hpc hroom
  rw [he] at h
  cases h
  refine ⟨_, exec_ret _ s.stack r rfl, ?pointer, rfl, fun _ => rfl, fun _ => rfl, rfl, rfl⟩
  exact BitVec.eq_of_toNat_eq ((jump_pc_toNat _ r).trans hr)

end Sys2Proof.Machine
end

section
/-! SUPPORT. R144, R147: subtraction by the complement, and `mod`. -/

namespace Sys2Proof.Machine

theorem ringNot_eq_not (a : Val) : ringNot a = ~~~a := BitVec.xor_allOnes

theorem ringAdd_ringNot_one (a : Val) : ringAdd (ringNot a) 1 = -a := by
  rw [ringAdd_eq_add, ringNot_eq_not]
  exact (BitVec.neg_eq_not_add a).symm

/-- Settles O34: in the ring 32767 is -1, and the complement plus one is the negation. -/
theorem complementSubtracts : Obligations.ComplementSubtracts := by
  refine ⟨fun a => ⟨ringAdd_toNat a 32767, ?decrement⟩, fun a b => ?subtract⟩
  case decrement =>
    rw [ringAdd_eq_add, ringAdd_eq_add, BitVec.add_assoc]
    exact BitVec.add_zero a
  case subtract =>
    rw [ringAdd_ringNot_one, ringAdd_eq_add, BitVec.add_neg_eq_sub, BitVec.toNat_sub, Nat.add_comm]

/-- Settles O28: the value written is the remainder of the operands, both resolved in the state before the write; for the
divisor 0 there is none. -/
theorem modWritesTheRemainder : Obligations.ModWritesTheRemainder :=
  ⟨fun d => decode_words_of_decodeDestTwo 11 .mod (by decide) (fun _ => rfl) (.reg d),
    fun s d a b h => exec_writes_toNat (exec_mod s d a b h) (remainder_toNat _ _),
    fun s d a b h => exec_takes_fault (exec_mod_zero s d a b h)⟩

end Sys2Proof.Machine
end

section
/-! SUPPORT. R160, R161, R63: what `rmem` and the fetch read. -/

namespace Sys2Proof.Machine

theorem decode_rmem_words (d a : Operand) (rest : List Word) :
    decode (15 :: encodeOperand d :: encodeOperand a :: rest) = .ok (.rmem d a) :=
  (decode_cons_of_immediate 15 _ (by decide)).trans (decodeDestOne_words .rmem d a rest)

/-- Settles O35: `rmem` writes the value of the word's number, where it is one. -/
theorem rmemReadsTheWord : Obligations.RmemReadsTheWord := by
  refine ⟨fun d => decode_rmem_words (.reg d), fun s d a h => exec_writes_toNat (exec_rmem s d a h) ?value,
    fun s d a h => exec_takes_fault (exec_rmem_invalid s d a h)⟩
  exact (BitVec.toNat_ofNat ..).trans (Nat.mod_eq_of_lt (by omega))

/-- Settles O37: the stored word reads back, and its number is a value's. -/
theorem storedValueReadsBack : Obligations.StoredValueReadsBack := by
  intro s t a b a' d hmem h haddr
  have hstored : t.mem = memWrite s.mem (resolve s a) (BitVec.ofNat 16 (resolve s b).toNat) := by
    cases h
    rfl
  have hword : (t.mem.wordAt (resolve t a').toNat).toNat = (resolve s b).toNat := by
    rw [hstored, haddr]
    exact memWrite_value_wordAt_toNat s.mem (resolve s a) (resolve s b) hmem
  obtain ⟨_, hrmem, _⟩ := rmemReadsTheWord
  obtain ⟨u, he, hreg, honly⟩ := hrmem t d a' (hword.trans_le (Nat.le_of_lt_succ (resolve s b).isLt))
  exact ⟨u, he, BitVec.eq_of_toNat_eq (hreg.trans hword), honly⟩

/-- Settles O38: the pointer after the `wmem` is the address of the stored word. -/
theorem storedWordIsFetchedNext : Obligations.StoredWordIsFetchedNext := by
  intro s t a b hmem h hpc haddr
  cases h
  have hnext := word_add_ofNat_toNat (w := s.pc) (n := 3) (by omega)
  refine ⟨_, _, fetchWords_of_pc_le (hnext.trans_le hpc), ?_⟩
  rw [State.advance_pc, State.setMem_pc, hnext, ← haddr]
  exact memWrite_value_wordAt_toNat s.mem (resolve s a) (resolve s b) hmem

end Sys2Proof.Machine
end

section
/-! SUPPORT. R180, R187: `out` and `in`, for each answer of their ports. -/

namespace Sys2Proof.Machine

/-! ## Output -/

theorem decode_out_words (a : Operand) (rest : List Word) : decode (19 :: encodeOperand a :: rest) = .ok (.out a) :=
  (decode_cons_of_immediate 19 _ (by decide)).trans (decodeOne_words .out a rest)

/-- Settles O43: an accepted value is appended to the trace before an advance by two words, and a failed `Emit` is a
fault that only the ports tell from another. -/
theorem outEmitsTheValue : Obligations.OutEmitsTheValue :=
  ⟨decode_out_words,
    fun s a h => ⟨_, exec_out_accepted s a h, rfl, rfl, rfl, fun _ => rfl, fun _ => rfl, rfl, ⟨rfl, rfl⟩, rfl⟩,
    fun s a h => ⟨_, exec_out_failed s a h,
      ⟨rfl, rfl, rfl, fun _ => rfl, fun _ => rfl, rfl, rfl, rfl⟩, rfl⟩⟩

/-! ## Input: what a read that the port answers leaves -/

section Answers

variable (p : PendingRead) {s : State}

theorem askInput_byte_spec {b : Byte} (h : inputEvent s = some (.byte b)) :
    ((askInput p s).reg p.dest).toNat = b.toNat ∧ (askInput p s).pc = p.start + 2 ∧ (askInput p s).waiting = none ∧
      (askInput p s).status = s.status ∧ (askInput p s).inTrace = s.inTrace ++ [.byte b] := by
  rw [askInput_byte p s b h]
  exact ⟨by rw [State.reg_setPc, State.reg_setReg_self, zextByte_toNat], rfl, rfl, rfl, rfl⟩

theorem askInput_closed_faultTaken (h : inputEvent s = some .closed) :
    FaultTaken .ioFailure p.start s (askInput p s) := by
  rw [askInput_closed p s h]
  exact ⟨rfl, rfl, rfl, fun _ => rfl, fun _ => rfl, rfl, rfl, rfl⟩

theorem askInput_none_spec (h : inputEvent s = none) :
    (askInput p s).waiting = some p ∧ (askInput p s).pc = p.start + 2 ∧ (askInput p s).status = s.status ∧
      (askInput p s).inTrace = s.inTrace ∧ SameRegs s (askInput p s) := by
  rw [askInput_none p s h]
  exact ⟨rfl, rfl, rfl, rfl, fun _ => rfl⟩

theorem askInput_sameMemory : SameMemory s (askInput p s) := fun x => by rw [askInput_mem]

end Answers

/-! ## Input: `in` -/

theorem decode_inp_words (d : Operand) (rest : List Word) : decode (20 :: encodeOperand d :: rest) = .ok (.inp d) :=
  (decode_cons_of_immediate 20 _ (by decide)).trans (decodeOne_words .inp d rest)

/-- Settles O44: `in` asks the port for a read at its start, after the kind check of its destination. -/
theorem inWritesTheByte : Obligations.InWritesTheByte := by
  refine ⟨fun d => decode_inp_words (.reg d), fun s d b h => ⟨_, exec_inp s d, ?byte⟩,
    fun s d h => ⟨_, exec_inp s d, askInput_closed_faultTaken _ h⟩, fun s d h => ⟨_, exec_inp s d, ?wait⟩,
    fun s v => exec_takes_fault (exec_immediate_destination _ s v rfl)⟩
  case byte =>
    obtain ⟨hreg, hpc, hwait, hstatus, htrace⟩ := askInput_byte_spec ⟨d, s.pc⟩ h
    exact ⟨hreg, hpc, hwait, hstatus, htrace, askInput_outTrace _ s, fun _ hr => askInput_reg_ne _ s hr,
      askInput_sameMemory _, askInput_stack _ s, askInput_build _ s⟩
  case wait =>
    obtain ⟨hwait, _, hstatus, htrace, hregs⟩ := askInput_none_spec ⟨d, s.pc⟩ h
    exact ⟨⟨_, hwait⟩, hstatus, hregs, htrace⟩

/-- Settles O45: without an answer `in` leaves the read it asked for in progress. -/
theorem inWaitsWithoutAnAnswer : Obligations.InWaitsWithoutAnAnswer := by
  intro s d h
  obtain ⟨hwait, hpc, hstatus, htrace, hregs⟩ := askInput_none_spec ⟨d, s.pc⟩ h
  exact ⟨_, exec_inp s d, hwait, hpc, hstatus, htrace, askInput_outTrace _ s, hregs, askInput_sameMemory _,
    askInput_stack _ s, askInput_build _ s⟩

theorem divertSentinel_byte_self (b : Byte) : divertSentinel (some b) (some (.byte b)) = none := if_pos rfl

/-- Whatever the collaborator has, the sentinel byte is not what the core gets. -/
theorem divertSentinel_ne_sentinel (b : Byte) (e : Option InputAnswer) :
    divertSentinel (some b) e ≠ some (.byte b) := by
  rcases e with _ | b' | _
  · nofun
  · simp only [divertSentinel]
    split
    · nofun
    · next hne =>
      rintro h
      cases h
      exact hne rfl
  · nofun

/-- Settles O47: a diverted byte is no answer, and without an answer `in` waits. -/
theorem sentinelNeverAnswersARead : Obligations.SentinelNeverAnswersARead := by
  refine ⟨fun s b hsent => ?never, fun s d b hsent hraw => ?waits⟩
  case never =>
    rw [inputEvent, hsent]
    exact divertSentinel_ne_sentinel b _
  case waits =>
    have hnone : inputEvent s = none := by rw [inputEvent, hsent, hraw, divertSentinel_byte_self]
    obtain ⟨hwait, _, _, htrace, hregs⟩ := askInput_none_spec ⟨d, s.pc⟩ hnone
    exact ⟨_, exec_inp s d, hwait, hregs, htrace⟩

/-! ## Input: a machine that waits -/

theorem step_of_wait {s : State} {p : PendingRead} (hrun : s.status = .running) (hp : s.waiting = some p) :
    step s = .next (askInput p s) := by
  simp only [step, hrun, stepRunning, hp]

theorem askInput_none_observe {p : PendingRead} {s : State} (h : inputEvent s = none) (hpc : s.pc = p.start + 2) :
    (askInput p s).observe = s.observe := by
  simp only [askInput_none p s h, State.observe, hpc]
  rfl

/-- Settles O46: a step of a waiting machine asks the port for the read in progress; by the invariant the pointer
already stands where the read leaves it. -/
theorem waitIsLeftOnlyByAnAnswer : Obligations.WaitIsLeftOnlyByAnAnswer := by
  intro s p hinv hp
  obtain ⟨hrun, _, hpc⟩ := hinv.wait p hp
  have hstep := step_of_wait hrun hp
  refine ⟨fun h => ⟨_, hstep, askInput_none_observe h hpc, ?wait, askInput_build p s⟩, fun b h => ⟨_, hstep, ?byte⟩,
    fun h => ⟨_, hstep, askInput_closed_faultTaken p h⟩⟩
  case wait =>
    obtain ⟨hwait, _⟩ := askInput_none_spec p h
    rw [hwait, hp]
  case byte =>
    obtain ⟨hreg, hpc', hwait, hstatus, htrace⟩ := askInput_byte_spec p h
    exact ⟨hwait, hstatus.trans hrun, hreg, htrace, askInput_outTrace p s, hpc', fun _ hr => askInput_reg_ne p s hr,
      askInput_sameMemory p, askInput_stack p s, askInput_build p s⟩

end Sys2Proof.Machine
end

section
/-! SUPPORT. R37, R41, R201: the fields of the status register, and the state after reset. -/

namespace Sys2Proof.Machine

theorem causeCode_le (c : Cause) : (causeCode c).toNat ≤ 10 := by
  cases c <;> decide

theorem stateField_ne_three (s : State) : s.stateField ≠ 3 := by
  unfold State.stateField
  cases s.status <;> nofun

theorem causeField_le (s : State) : s.causeField.toNat ≤ 10 := by
  unfold State.causeField
  cases s.status with
  | running | halted => exact Nat.zero_le 10
  | faulted c a => exact causeCode_le c

/-- Settles O50: the fields are functions of the run status, and the codes of the causes are those of R201. -/
theorem statusRegisterShowsTheRunStatus : Obligations.StatusRegisterShowsTheRunStatus := by
  refine ⟨fun s h => ?running, fun s h => ?halted, fun s c a h => ?faulted, fun s => ?ranges⟩
  case running | halted => simp only [State.stateField, State.causeField, h, and_self]
  case faulted =>
    simp only [State.stateField, State.causeField, State.faultAddrField, h, true_and]
    cases c <;> rfl
  case ranges => exact ⟨stateField_ne_three s, causeField_le s⟩

theorem reset_wordAt_toNat (a : Nat) : (State.reset.mem.wordAt a).toNat = 0 := rfl

/-- Settles O51: each field is as the reset state writes it. -/
theorem resetStateIsAsTheTableSays : Obligations.ResetStateIsAsTheTableSays :=
  ⟨fun r => congrArg BitVec.toNat (State.reset_reg r), rfl, rfl, reset_wordAt_toNat, rfl, rfl, rfl, rfl, rfl, rfl⟩

end Sys2Proof.Machine
end
